-- ==== Sys2Proof/Word.lean ====
section
/-! DEFINITION. The word and byte types of 00_scope.md R6: a word is 32 bits, a byte 8, both unsigned. -/

namespace Sys2Proof

/-- A 32-bit unsigned word (R6: WORD; R8: the width of the command and response words). -/
abbrev Word := BitVec 32

/-- A message, block or digest byte. -/
abbrev Byte := BitVec 8

end Sys2Proof
end

