-- ==== Sys2Proof/Syntax.lean ====
section
/-! DEFINITION. The seven commands of 30_encoding.md R94, one constructor for each row of spec/opcode_table.json, with
the operands of R93 at their exact widths. -/

namespace Sys2Proof

/-- A command of `sha256_core` (R94). Every value of every operand field is legal (R93), so each operand has the
width of its field. -/
inductive Instr where
  /-- NOP, format N (45_control.md R250). -/
  | nop
  /-- INIT, format N (45_control.md R251). -/
  | init
  /-- ABSORB_BYTE, format B: `data` = DATA = word[7:0] (41_chunker.md R155). -/
  | absorbByte (data : Byte)
  /-- FINALIZE, format N (40_preprocessor.md R130). -/
  | finalize
  /-- READ_DIGEST_BYTE, format I: `idx` = IDX = word[4:0] (44_output_serializer.md R234). -/
  | readDigestByte (idx : BitVec 5)
  /-- READ_DIGEST_WORD, format W: `widx` = WIDX = word[2:0] (44_output_serializer.md R235). -/
  | readDigestWord (widx : BitVec 3)
  /-- READ_STATUS, format N (45_control.md R252). -/
  | readStatus
  deriving DecidableEq, Repr

/-- Why a word is no command (R95): `Illegal(c)`. -/
inductive Illegal where
  /-- OP is in 0x7..0xF (R96). -/
  | illegalOpcode
  /-- OP is in 0x0..0x6 and a reserved bit of its format is 1 (R92). -/
  | reservedField
  deriving DecidableEq, Repr

/-- What `Decode` returns (R95): exactly one command or one reason. -/
inductive Decoded where
  | cmd (i : Instr)
  | illegal (why : Illegal)
  deriving DecidableEq, Repr

end Sys2Proof
end

