-- ==== Sys2Proof/WellFormed.lean ====
section
/-! DEFINITION. When a 32-bit word is a command (30_encoding.md R92, R94): its OP selects a command, and every bit its
format reserves is 0. A term of `Instr` needs no check of its own: R93 makes every value of every operand field legal,
and the operands have the fields' widths. -/

namespace Sys2Proof

/-- OP = word[31:28] (R92). -/
def opField (w : Word) : BitVec 4 := w.extractLsb' 28 4

/-- The bits the format of a defined OP reserves (R92; the `rmask` of R95). For OP in 0x7..0xF, which has no format,
all of word[27:0]. -/
def reservedMask (op : BitVec 4) : Word :=
  match op.toNat with
  | 2 => 0x0FFFFF00#32
  | 4 => 0x0FFFFFE0#32
  | 5 => 0x0FFFFFF8#32
  | _ => 0x0FFFFFFF#32

/-- OP selects one of the seven commands (R94). -/
def opDefined (w : Word) : Bool := (opField w).toNat < 7

/-- Every bit reserved by the format of the word's OP is 0 (R92). -/
def reservedClear (w : Word) : Bool := w &&& reservedMask (opField w) = 0#32

/-- The word is a command: it passes both checks (R95). -/
def wordWellFormed (w : Word) : Bool := opDefined w && reservedClear w

/-- Every command is well formed: R93 makes every value of DATA, IDX and WIDX legal. -/
def Instr.wellFormed : Instr → Bool
  | .nop => true
  | .init => true
  | .absorbByte _ => true
  | .finalize => true
  | .readDigestByte _ => true
  | .readDigestWord _ => true
  | .readStatus => true

end Sys2Proof
end

