-- ==== Sys2Proof/Decode.lean ====
section
/-! DEFINITION. The decoder of 30_encoding.md R95, total on all 2^32 words, and the encoder, written from the opcode map
R94. Decoding reads no state. -/

namespace Sys2Proof

/-- The command that OP and the operand bits select (R94, R93), for a word whose OP is defined and whose reserved bits
are 0. `none` for OP in 0x7..0xF, which selects none (R96). -/
def selectCommand (w : Word) : Option Instr :=
  match (opField w).toNat with
  | 0 => some .nop
  | 1 => some .init
  | 2 => some (.absorbByte (w.extractLsb' 0 8))
  | 3 => some .finalize
  | 4 => some (.readDigestByte (w.extractLsb' 0 5))
  | 5 => some (.readDigestWord (w.extractLsb' 0 3))
  | 6 => some .readStatus
  | _ => none

/-- `Decode(word)` (R95): ILLEGAL_OPCODE first, then RESERVED_FIELD, then the command. -/
def decode (w : Word) : Decoded :=
  match selectCommand w with
  | none => .illegal .illegalOpcode
  | some i => if reservedClear w then .cmd i else .illegal .reservedField

/-- The word that encodes a command: OP in word[31:28], the operand in the low bits of its format, the reserved bits 0
(R92, R94). -/
def encode : Instr → Word
  | .nop => 0x0#4 ++ 0#28
  | .init => 0x1#4 ++ 0#28
  | .absorbByte data => 0x2#4 ++ 0#20 ++ data
  | .finalize => 0x3#4 ++ 0#28
  | .readDigestByte idx => 0x4#4 ++ 0#23 ++ idx
  | .readDigestWord widx => 0x5#4 ++ 0#25 ++ widx
  | .readStatus => 0x6#4 ++ 0#28

/-- A row of the opcode map: a word selects the row's command when `word &&& mask = pattern` (R94). -/
structure OpcodeRow where
  pattern : Word
  mask : Word
  deriving DecidableEq, Repr

/-- The row of the opcode map (R94) that a command belongs to: its match and mask columns. -/
def opcodeRow : Instr → OpcodeRow
  | .nop => ⟨0x00000000#32, 0xFFFFFFFF#32⟩
  | .init => ⟨0x10000000#32, 0xFFFFFFFF#32⟩
  | .absorbByte _ => ⟨0x20000000#32, 0xFFFFFF00#32⟩
  | .finalize => ⟨0x30000000#32, 0xFFFFFFFF#32⟩
  | .readDigestByte _ => ⟨0x40000000#32, 0xFFFFFFE0#32⟩
  | .readDigestWord _ => ⟨0x50000000#32, 0xFFFFFFF8#32⟩
  | .readStatus => ⟨0x60000000#32, 0xFFFFFFFF#32⟩

/-- The instruction the decoder reads from a table word of `nbits` bits (the host's question). A command is one 32-bit
word (R91): bits above `nbits` are 0, and a longer word is no command (log 14). -/
def decodeTableWord (nbits w : Nat) : Option Instr :=
  if nbits ≤ 32 then
    match decode (BitVec.ofNat 32 (w % 2 ^ nbits)) with
    | .cmd i => some i
    | .illegal _ => none
  else none

end Sys2Proof
end

