-- ==== Sys2Proof/Machine/State.lean ====
section
/-! DEFINITION. The state of one `sha256_core` instance (10_state.md R30), its two ports (30_encoding.md R90), the reasons a
step of the model can stop, and the state after hardware reset (70_reset_and_hazards.md R400). -/

namespace Sys2Proof.Machine

/-- PHASE: where the core is in a digest computation (R33). The encoding 3 is never held (93_implementation_defined.md
U8), so it has no constructor. -/
inductive Phase where
  /-- No digest has been started since reset. -/
  | idle
  /-- INIT has run and message bytes are being accepted. -/
  | absorb
  /-- FINALIZE has run, and H holds the final digest. -/
  | done
  deriving DecidableEq, Repr

/-- CAUSE: the first fault since reset (R35; the codes are 60_exceptions.md R302). Codes 5 to 15 are never produced
(U8). -/
inductive Cause where
  /-- No fault (ERR = 0). -/
  | none
  /-- OP in 0x7..0xF. -/
  | illegalOpcode
  /-- A defined OP with a nonzero reserved bit. -/
  | reservedField
  /-- A command outside its phase (R303). -/
  | wrongPhase
  /-- ABSORB_BYTE with MSG_LEN = 2^61 - 1 (R304). -/
  | lengthOverflow
  deriving DecidableEq, Repr

/-- SEQ: the micro-sequencer position (R43). `expand k` is the spec's Expand(16 + k). -/
inductive Seq where
  | idle
  | load
  | expand (k : Fin 48)
  | initWorking
  | round (t : Fin 64)
  | fold
  deriving DecidableEq, Repr

/-- The working variables a..h (R40). -/
structure Working where
  a : Word
  b : Word
  c : Word
  d : Word
  e : Word
  f : Word
  g : Word
  h : Word
  deriving DecidableEq, Repr

/-- What the outside world can do to the core: present a command word (R90), or assert hardware reset between two
commands (R400; log 5). -/
inductive HostInput where
  | command (word : Word)
  | reset
  deriving DecidableEq, Repr

/-- The elements that can hold no value (R46), at the granularity R46 names them. -/
inductive Element where
  | buf (i : Fin 64)
  | hashState
  | schedule (t : Fin 64)
  | working
  deriving DecidableEq, Repr

/-- Why a step of the model stops. No fault the HARDWARE reports is here: those are latched in ERR and CAUSE, and the
step goes on (60_exceptions.md R301). -/
inductive Fault where
  /-- A read of an element that holds no value. R30: "Reading it before a write is a model fault, never a value". Raised
  by the micro-operations and the digest reads. Safe: the invariant of Safety.lean excludes it (log 1). -/
  | unwritten (e : Element)
  /-- APPEND with BUF_LEN over 63, where R152 says the write is always in range. Raised by APPEND only. Safe: the
  invariant of Safety.lean excludes it (log 8). -/
  | bufferIndex
  deriving DecidableEq, Repr

/-- Why a step has no meaning. -/
inductive Refusal where
  /-- An instruction with no meaning yet, by its mnemonic. Raised by an arm of `exec` only; no arm does. Safe. -/
  | notModelled (mnemonic : String)
  deriving DecidableEq, Repr

/-- The state of one instance (R30), and the inputs and responses at its ports. The ROMs are constants
(Machine/Rom.lean; log 6). -/
structure State where
  /-- PHASE (R33). -/
  phase : Phase
  /-- ERR, the sticky fault bit (R34). -/
  err : Bool
  /-- CAUSE (R35). -/
  cause : Cause
  /-- MSG_LEN, the bytes accepted since the last INIT (R36). -/
  msgLen : BitVec 61
  /-- BUF[0..63]; `none` is an entry that holds no value (R37, R46). -/
  buf : Vector (Option Byte) 64
  /-- BUF_LEN, a 7-bit register: 0..63 at rest, 64 only inside a command (R37). -/
  bufLen : BitVec 7
  /-- H[0..7], the Hash State; `none` while it holds no value (R38, R46). -/
  H : Option (Vector Word 8)
  /-- W[0..63], the Message Schedule; `none` is a word that holds no value (R39, R46). -/
  W : Vector (Option Word) 64
  /-- The working variables a..h; `none` while they hold no value (R40, R46). -/
  work : Option Working
  /-- SEQ (R43). -/
  seq : Seq
  /-- The command port: the host's inputs not yet taken, in the order it gives them (R90, R70; log 2). -/
  pending : List HostInput
  /-- The response port: the responses presented so far, the newest first (R90; log 3). -/
  responses : List Word
  deriving DecidableEq, Repr

/-- The state after hardware reset (R400), with nothing at the ports. H, BUF, W and a..h hold no value (R46). -/
def State.reset : State where
  phase := .idle
  err := false
  cause := .none
  msgLen := 0#61
  buf := Vector.replicate 64 none
  bufLen := 0#7
  H := none
  W := Vector.replicate 64 none
  work := none
  seq := .idle
  pending := []
  responses := []

end Sys2Proof.Machine
end

