-- ==== Sys2Proof/Machine/Flags.lean ====
section
/-! DEFINITION. The status word of 10_state.md R44 and 45_control.md R252, with the codes of PHASE (R33) and CAUSE
(60_exceptions.md R302). It is a view with no storage of its own. -/

namespace Sys2Proof.Machine

/-- PHASE[1:0] (R33). -/
def phaseCode : Phase → BitVec 2
  | .idle => 0#2
  | .absorb => 1#2
  | .done => 2#2

/-- CAUSE[3:0] (R302). -/
def causeCode : Cause → BitVec 4
  | .none => 0#4
  | .illegalOpcode => 1#4
  | .reservedField => 2#4
  | .wrongPhase => 3#4
  | .lengthOverflow => 4#4

/-- The cause an undecodable word raises (R302). -/
def illegalCause : Illegal → Cause
  | .illegalOpcode => .illegalOpcode
  | .reservedField => .reservedField

/-- `STATUS = {16'b0, CAUSE[3:0], 2'b0, BUF_LEN[5:0], 1'b0, ERR, PHASE[1:0]}` (R44). -/
def statusWord (s : State) : Word :=
  0#16 ++ causeCode s.cause ++ 0#2 ++ s.bufLen.extractLsb' 0 6 ++ 0#1 ++ BitVec.ofBool s.err ++ phaseCode s.phase

end Sys2Proof.Machine
end

