-- ==== Sys2Proof/Machine/Operands.lean ====
section
/-! DEFINITION. The word and byte primitives of 00_scope.md R10 and R11, and the operand forms of 30_encoding.md R93. All
values are unsigned, byte order is big-endian throughout (20_memory.md R64), and no operation raises anything
(60_exceptions.md R300). -/

namespace Sys2Proof.Machine

/-- `rotr(x, n)` for 0 < n < 32: a circular right rotation (R10). -/
def rotr (x : Word) (n : Nat) : Word := (x >>> n) ||| (x <<< (32 - n))

/-- `shr(x, n)` for 0 <= n < 32: a zero-filling right shift (R10). -/
def shr (x : Word) (n : Nat) : Word := x >>> n

/-- `add32(x1, ..., xn) = (x1 + ... + xn) mod 2^32` (R10): the exact sum, then the low 32 bits. -/
def add32 (xs : List Word) : Word := BitVec.ofNat 32 (xs.map BitVec.toNat).sum

/-- `be32(b0, b1, b2, b3) = {b0, b1, b2, b3}` (R11): b0 is bits 31:24. -/
def be32 (b0 b1 b2 b3 : Byte) : Word := b0 ++ b1 ++ b2 ++ b3

/-- Byte `j` of a word counted from the most significant: `w[31-8j : 24-8j]` (R11, R63), for j in 0..3. -/
def wordByte (w : Word) (j : Nat) : Byte := w.extractLsb' (24 - 8 * j) 8

/-- `bytes_be32(w)` (R11). -/
def bytesBE32 (w : Word) : List Byte := [wordByte w 0, wordByte w 1, wordByte w 2, wordByte w 3]

/-- `bytes_be64(v) = [v[63:56], ..., v[7:0]]` (R11). -/
def bytesBE64 (v : BitVec 64) : List Byte := (List.range 8).map fun j => v.extractLsb' (56 - 8 * j) 8

/-- `zext32(v)` of a byte (R11). -/
def zext32 (b : Byte) : Word := b.setWidth 32

/-- The word index IDX[4:2] of a digest byte index (R234). -/
def idxWord (idx : BitVec 5) : BitVec 3 := idx.extractLsb' 2 3

/-- The byte index IDX[1:0] of a digest byte index within its word (R234). -/
def idxByte (idx : BitVec 5) : BitVec 2 := idx.extractLsb' 0 2

/-- The digest word H[WIDX]; every WIDX is in range (R93, R235). -/
def digestWord (h : Vector Word 8) (widx : BitVec 3) : Word := h[widx.toNat]'widx.isLt

/-- The digest byte H[i][31-8j : 24-8j] with i = IDX[4:2], j = IDX[1:0]; every IDX is in range (R93, R234). -/
def digestByte (h : Vector Word 8) (idx : BitVec 5) : Byte :=
  wordByte (digestWord h (idxWord idx)) (idxByte idx).toNat

/-- `Lb = {MSG_LEN[60:0], 3'b000}`, the message length in bits, exact (40_preprocessor.md R126, R130). -/
def lengthBits (msgLen : BitVec 61) : BitVec 64 := msgLen ++ 0#3

end Sys2Proof.Machine
end

