-- ==== Sys2Proof/Machine/Ops.lean ====
section
/-! DEFINITION. The operations the commands share: sequencing, reading an element that may hold no value, presenting a
response, taking a fault (60_exceptions.md R301) and the one way out of it, hardware reset (70_reset_and_hazards.md
R400). -/

namespace Sys2Proof.Machine

/-- The three outcomes of a command on this machine. -/
abbrev Result := Host.Outcome State Fault Refusal

/-- Go on with `f` from the next state; a stop stays a stop. -/
def andThen : Result → (State → Result) → Result
  | .next s, f => f s
  | .fault r, _ => .fault r
  | .refused r, _ => .refused r

/-- `for x in xs: f(x)`, in the order of the list. -/
def forEach {α : Type} (f : α → State → Result) : List α → State → Result
  | [], s => .next s
  | x :: xs, s => andThen (f x s) (forEach f xs)

/-- Read an element: a read of one that holds no value is a model fault, never a value (10_state.md R30, R46;
93_implementation_defined.md U9; log 1). -/
def readElement {α : Type} (e : Element) (held : Option α) (k : α → Result) : Result :=
  match held with
  | some v => k v
  | none => .fault (.unwritten e)

/-- Read BUF[i]. -/
def readBuf (i : Fin 64) (s : State) (k : Byte → Result) : Result := readElement (.buf i) s.buf[i] k

/-- Read W[t]. -/
def readW (t : Fin 64) (s : State) (k : Word → Result) : Result := readElement (.schedule t) s.W[t] k

/-- Read H. -/
def readHash (s : State) (k : Vector Word 8 → Result) : Result := readElement .hashState s.H k

/-- Read a..h. -/
def readWorking (s : State) (k : Working → Result) : Result := readElement .working s.work k

/-- `W[t] <- w`. -/
def State.writeW (s : State) (t : Fin 64) (w : Word) : State := { s with W := s.W.set t (some w) }

/-- `resp <- v`: present the command's one response (30_encoding.md R90). -/
def State.respond (s : State) (v : Word) : State := { s with responses := v :: s.responses }

/-- `FaultStep(S, c)` (R301), the whole effect of a fault (R307): ERR and CAUSE are latched, the response is 0, and no
other element changes. The machine goes on. -/
def faultStep (c : Cause) (s : State) : Result := .next ({ s with err := true, cause := c }.respond 0#32)

/-- `if S.ERR = 1 the command is ignored` (R305): no state changes and the response is 0. -/
def unlessErr (s : State) (body : State → Result) : Result := if s.err then .next (s.respond 0#32) else body s

/-- `if S.PHASE != p: raise Fault(WRONG_PHASE)` (R303). -/
def inPhase (p : Phase) (s : State) (body : State → Result) : Result :=
  if s.phase = p then body s else faultStep .wrongPhase s

/-- A word that is no command: its fault, or, with ERR = 1, nothing (45_control.md R253). -/
def illegalCommand (why : Illegal) (s : State) : Result := unlessErr s (faultStep (illegalCause why))

/-- Hardware reset (R400), the only event that clears ERR (R308): the core is as `State.reset` says. What the host has
yet to give and what it has been given are the host's own and stay (log 5). -/
def hardwareReset (s : State) : State := { State.reset with pending := s.pending, responses := s.responses }

end Sys2Proof.Machine
end

