-- ==== Sys2Proof/Machine/Expander.lean ====
section
/-! DEFINITION. The schedule expander (42_schedule_expander.md): the schedule functions R172 and the micro-operations
LOAD_SCHEDULE (R171) and EXPAND_STEP (R173). -/

namespace Sys2Proof.Machine

/-- `sigma0` (R172). -/
def sigma0 (x : Word) : Word := rotr x 7 ^^^ rotr x 18 ^^^ shr x 3

/-- `sigma1` (R172). -/
def sigma1 (x : Word) : Word := rotr x 17 ^^^ rotr x 19 ^^^ shr x 10

/-- `W[t] <- be32(B[4t], B[4t+1], B[4t+2], B[4t+3])` with B = BUF, for t in 0..15 (R171). -/
def loadWord (t : Fin 16) (s : State) : Result :=
  readBuf ⟨4 * t, by omega⟩ s fun b0 =>
  readBuf ⟨4 * t + 1, by omega⟩ s fun b1 =>
  readBuf ⟨4 * t + 2, by omega⟩ s fun b2 =>
  readBuf ⟨4 * t + 3, by omega⟩ s fun b3 =>
  .next (s.writeW ⟨t, by omega⟩ (be32 b0 b1 b2 b3))

/-- LOAD_SCHEDULE (R171): `for t in 0..15`. -/
def loadSchedule (s : State) : Result := forEach loadWord (List.finRange 16) s

/-- The word EXPAND_STEP derives from W[t-16], W[t-15], W[t-7] and W[t-2] (R173). -/
def scheduleWord (w16 w15 w7 w2 : Word) : Word := add32 [w16, sigma0 w15, w7, sigma1 w2]

/-- EXPAND_STEP(t) with t = 16 + k (R173). -/
def expandStep (k : Fin 48) (s : State) : Result :=
  readW ⟨k, by omega⟩ s fun w16 =>
  readW ⟨k + 1, by omega⟩ s fun w15 =>
  readW ⟨k + 9, by omega⟩ s fun w7 =>
  readW ⟨k + 14, by omega⟩ s fun w2 =>
  .next (s.writeW ⟨k + 16, by omega⟩ (scheduleWord w16 w15 w7 w2))

end Sys2Proof.Machine
end

