-- ==== Sys2Proof/Machine/Compressor.lean ====
section
/-! DEFINITION. The compressor (43_compressor.md): the logical functions R191 to R193, the micro-operations INIT_WORKING
(R204), ROUND (R205) and FOLD (R208), the micro-sequencer (10_state.md R43) and PROCESS_BLOCK (R209). -/

namespace Sys2Proof.Machine

/-- `Sigma0` (R191). -/
def bigSigma0 (x : Word) : Word := rotr x 2 ^^^ rotr x 13 ^^^ rotr x 22

/-- `Sigma1` (R191). -/
def bigSigma1 (x : Word) : Word := rotr x 6 ^^^ rotr x 11 ^^^ rotr x 25

/-- `Ch` (R192). -/
def ch (e f g : Word) : Word := (e &&& f) ^^^ (~~~e &&& g)

/-- `Maj` (R193). -/
def maj (a b c : Word) : Word := (a &&& b) ^^^ (a &&& c) ^^^ (b &&& c)

/-- `T1` of a round with constant `k` and schedule word `w` (R205). -/
def roundT1 (v : Working) (k w : Word) : Word := add32 [v.h, bigSigma1 v.e, ch v.e v.f v.g, k, w]

/-- `T2` of a round (R205). -/
def roundT2 (v : Working) : Word := add32 [bigSigma0 v.a, maj v.a v.b v.c]

/-- `RoundF` (R205, R210): the parallel assignment, every right-hand side from before the round (R13). -/
def roundF (v : Working) (k w : Word) : Working where
  a := add32 [roundT1 v k w, roundT2 v]
  b := v.a
  c := v.b
  d := v.c
  e := add32 [v.d, roundT1 v k w]
  f := v.e
  g := v.f
  h := v.g

/-- `(a, ..., h) <- (H[0], ..., H[7])` (R204). -/
def Working.ofHash (H : Vector Word 8) : Working := ⟨H[0], H[1], H[2], H[3], H[4], H[5], H[6], H[7]⟩

/-- a..h as a sequence, in the correspondence order of FOLD (R208). -/
def Working.toVector (v : Working) : Vector Word 8 := #v[v.a, v.b, v.c, v.d, v.e, v.f, v.g, v.h]

/-- `H[k] = add32(H[k], {a,...,h}[k])` for k in 0..7, all eight together (R208). -/
def foldHash (H : Vector Word 8) (v : Working) : Vector Word 8 :=
  Vector.ofFn fun k => add32 [H[k], v.toVector[k]]

/-- INIT_WORKING (R204). -/
def initWorking (s : State) : Result := readHash s fun H => .next { s with work := some (Working.ofHash H) }

/-- ROUND(t) (R205). -/
def roundStep (t : Fin 64) (s : State) : Result :=
  readWorking s fun v => readW t s fun w => .next { s with work := some (roundF v Rom.K[t] w) }

/-- FOLD (R208). -/
def foldStep (s : State) : Result :=
  readHash s fun H => readWorking s fun v => .next { s with H := some (foldHash H v) }

/-- The micro-operation at a sequencer position (R43). At Idle there is none. -/
def microOp : Seq → State → Result
  | .idle, s => .next s
  | .load, s => loadSchedule s
  | .expand k, s => expandStep k s
  | .initWorking, s => initWorking s
  | .round t, s => roundStep t s
  | .fold, s => foldStep s

/-- The order of positions: Load, Expand(16), ..., Expand(63), InitWorking, Round(0), ..., Round(63), Fold, back to
Idle (R43). Idle stays Idle until a block is full. -/
def Seq.succ : Seq → Seq
  | .idle => .idle
  | .load => .expand 0
  | .expand k => if h : k.val + 1 < 48 then .expand ⟨k.val + 1, h⟩ else .initWorking
  | .initWorking => .round 0
  | .round t => if h : t.val + 1 < 64 then .round ⟨t.val + 1, h⟩ else .fold
  | .fold => .idle

/-- Run the micro-operation at position `p` and move SEQ to the position after it. -/
def microAt (p : Seq) (s : State) : Result := andThen (microOp p s) fun t => .next { t with seq := p.succ }

/-- One step of the micro-sequencer: the micro-operation SEQ stands at (R43). -/
def microStep (s : State) : Result := microAt s.seq s

/-- The micro-operations of one block, in the order of PROCESS_BLOCK (R209). -/
def blockSequence : List Seq :=
  [.load] ++ (List.finRange 48).map .expand ++ [.initWorking] ++ (List.finRange 64).map .round ++ [.fold]

/-- PROCESS_BLOCK (R209) on the block in BUF: LOAD_SCHEDULE, EXPAND_STEP(16..63), INIT_WORKING, ROUND(0..63), FOLD. SEQ
leaves Idle and is Idle again at the end. -/
def processBlock (s : State) : Result := forEach microAt blockSequence { s with seq := .load }

end Sys2Proof.Machine
end

