-- ==== Sys2Proof/Machine/Chunker.lean ====
section
/-! DEFINITION. The block chunker (41_chunker.md): the micro-operation APPEND (R152) and the command ABSORB_BYTE (R155). -/

namespace Sys2Proof.Machine

/-- `S.BUF[S.BUF_LEN] <- b; S.BUF_LEN <- S.BUF_LEN + 1` (R152). BUF_LEN over 63 at entry never happens (R152); it is a
model fault (log 8). -/
def storeByte (b : Byte) (s : State) : Result :=
  if h : s.bufLen.toNat < 64 then
    .next { s with buf := s.buf.set s.bufLen.toNat (some b) h, bufLen := s.bufLen + 1#7 }
  else .fault .bufferIndex

/-- `if S.BUF_LEN = 64: PROCESS_BLOCK(S.BUF[0..63]); S.BUF_LEN <- 0` (R152). -/
def processIfFull (s : State) : Result :=
  if s.bufLen = 64#7 then andThen (processBlock s) fun t => .next { t with bufLen := 0#7 } else .next s

/-- APPEND(b) (R152). -/
def appendByte (b : Byte) (s : State) : Result := andThen (storeByte b s) processIfFull

/-- ABSORB_BYTE (R155). Both checks come before any write. -/
def execAbsorbByte (data : Byte) (s : State) : Result :=
  unlessErr s fun s => inPhase .absorb s fun s =>
    if s.msgLen.toNat = maxMsgBytes then faultStep .lengthOverflow s
    else andThen (appendByte data { s with msgLen := s.msgLen + 1#61 }) fun t => .next (t.respond 0#32)

end Sys2Proof.Machine
end

