-- ==== Sys2Proof/Machine/Control.lean ====
section
/-! DEFINITION. The control commands (45_control.md): NOP (R250), INIT (R251) and READ_STATUS (R252). -/

namespace Sys2Proof.Machine

/-- NOP (R250): legal in every phase and also when ERR = 1. -/
def execNop (s : State) : Result := .next (s.respond 0#32)

/-- INIT (R251). BUF, W and a..h keep stale contents (log 7). -/
def execInit (s : State) : Result :=
  unlessErr s fun s =>
    .next ({ s with H := some Rom.H0, msgLen := 0#61, bufLen := 0#7, phase := .absorb }.respond 0#32)

/-- READ_STATUS (R252): legal in every phase and also when ERR = 1. -/
def execReadStatus (s : State) : Result := .next (s.respond (statusWord s))

end Sys2Proof.Machine
end

