-- ==== Sys2Proof/Machine/Preprocessor.lean ====
section
/-! DEFINITION. The preprocessor's command FINALIZE (40_preprocessor.md R130). -/

namespace Sys2Proof.Machine

/-- `while S.BUF_LEN != 56: APPEND(0x00)` (R130), with a bound on the iterations. BUF_LEN counts through 0..63, so 63
iterations always reach 56 (R130: "0..63 iterations"; log 9). -/
def appendZeros : Nat → State → Result
  | 0, s => .next s
  | n + 1, s => if s.bufLen = 56#7 then .next s else andThen (appendByte 0x00#8 s) (appendZeros n)

/-- The separator, the zeros and the length field of FINALIZE (R130). -/
def appendPadding (lb : BitVec 64) (s : State) : Result :=
  andThen (appendByte 0x80#8 s) fun s => andThen (appendZeros 63 s) (forEach appendByte (bytesBE64 lb))

/-- FINALIZE (R130). MSG_LEN is read and not changed. -/
def execFinalize (s : State) : Result :=
  unlessErr s fun s => inPhase .absorb s fun s =>
    andThen (appendPadding (lengthBits s.msgLen) s) fun t => .next ({ t with phase := .done }.respond 0#32)

end Sys2Proof.Machine
end

