-- ==== Sys2Proof/Machine/Serializer.lean ====
section
/-! DEFINITION. The output serializer's commands (44_output_serializer.md): READ_DIGEST_BYTE (R234) and READ_DIGEST_WORD
(R235). Neither changes any element of the core. -/

namespace Sys2Proof.Machine

/-- READ_DIGEST_BYTE (R234). -/
def execReadDigestByte (idx : BitVec 5) (s : State) : Result :=
  unlessErr s fun s => inPhase .done s fun s => readHash s fun h => .next (s.respond (zext32 (digestByte h idx)))

/-- READ_DIGEST_WORD (R235). -/
def execReadDigestWord (widx : BitVec 3) (s : State) : Result :=
  unlessErr s fun s => inPhase .done s fun s => readHash s fun h => .next (s.respond (digestWord h widx))

end Sys2Proof.Machine
end

