-- ==== Sys2Proof/Machine/Dispatch.lean ====
section
/-! DEFINITION. The dispatch of 45_control.md R253: one arm for each command. -/

namespace Sys2Proof.Machine

def exec (i : Instr) (s : State) : Host.Outcome State Fault Refusal :=
  match i with
  | .nop => Sys2Proof.Machine.execNop s
  | .init => Sys2Proof.Machine.execInit s
  | .absorbByte data => Sys2Proof.Machine.execAbsorbByte data s
  | .finalize => Sys2Proof.Machine.execFinalize s
  | .readDigestByte idx => Sys2Proof.Machine.execReadDigestByte idx s
  | .readDigestWord widx => Sys2Proof.Machine.execReadDigestWord widx s
  | .readStatus => Sys2Proof.Machine.execReadStatus s

end Sys2Proof.Machine
end

