-- ==== Sys2Proof/Machine/Port.lean ====
section
/-! DEFINITION. The command port (30_encoding.md R90): taking the host's next input, and what one input does (45_control.md
R253, 70_reset_and_hazards.md R400). -/

namespace Sys2Proof.Machine

/-- The host's next input and the state once it is taken; `none` while the host presents nothing. -/
def nextInput (s : State) : Option (HostInput × State) :=
  match s.pending with
  | [] => none
  | x :: rest => some (x, { s with pending := rest })

/-- `Step(S, word)` (R253). READ_STATUS and NOP do the same whatever ERR is, and every other command and every illegal
word is ignored when ERR = 1 (R305). -/
def runCommand (w : Word) (s : State) : Result :=
  match decode w with
  | .cmd i => exec i s
  | .illegal why => illegalCommand why s

/-- What one host input does: a command word is one command, and a hardware reset is R400. -/
def acceptInput : HostInput → State → Result
  | .command w, s => runCommand w s
  | .reset, s => .next (hardwareReset s)

/-- The word of a table row as the next input at the command port (log 14). -/
def tableInput (nbits w : Nat) : HostInput := .command (BitVec.ofNat 32 (w % 2 ^ nbits))

end Sys2Proof.Machine
end

