-- ==== Sys2Proof/Machine/Step.lean ====
section
/-! DEFINITION. The step: one host input is one atomic step (20_memory.md R66, 45_control.md R253, 70_reset_and_hazards.md
R412). -/

namespace Sys2Proof.Machine

/-- Take the host's next input and run it to completion. While the host presents nothing the state stays (log 4). -/
def step (s : State) : Host.Outcome State Fault Refusal :=
  match nextInput s with
  | none => .next s
  | some (x, t) => acceptInput x t

/-- The state with the word as the next input the host presents, before those it presents already. The core fetches
nothing (10_state.md R31): the command port is where step takes its next command (log 2). -/
def State.withFetchWord (s : State) (nbits w : Nat) : State := { s with pending := tableInput nbits w :: s.pending }

end Sys2Proof.Machine
end

