-- ==== Sys2Proof/Machine/Assembler.lean ====
section
/-! DEFINITION. The assembler of 30_encoding.md R98 and its pseudo-commands R99, a host-side tool: one command a line,
lower-case mnemonics, decimal or 0x numbers, `;` comments, and a refusal (`none`) of everything else. Source text is a
list of characters. Lexical details the spec leaves open are in log 12. -/

namespace Sys2Proof.Machine

/-- A token of a source line. -/
inductive Token where
  | word (cs : List Char)
  | text (cs : List Char)
  | comma
  deriving DecidableEq, Repr

/-- Where the lexer stands: between tokens, inside a word, or inside a quoted text (characters so far, reversed). -/
inductive LexMode where
  | gap
  | word (acc : List Char)
  | text (acc : List Char)
  deriving DecidableEq, Repr

/-- The word token under way, if any, before the tokens that follow. -/
def closeWord : LexMode → List Token → List Token
  | .word acc, ts => .word acc.reverse :: ts
  | _, ts => ts

/-- Split a line into tokens; a text left open is refused. What ends a word or a text is the model's choice (log 12): an opening
quote, a comma or a `;` does, so no white space is needed beside them. -/
def lexLine : LexMode → List Char → Option (List Token)
  | .text _, [] => none
  | m, [] => some (closeWord m [])
  | .text acc, c :: cs =>
    if c = '"' then (lexLine .gap cs).map (.text acc.reverse :: ·) else lexLine (.text (c :: acc)) cs
  | m, c :: cs =>
    if c = ';' then some (closeWord m [])
    else if c = ' ' ∨ c = '\t' then (lexLine .gap cs).map (closeWord m)
    else if c = ',' then (lexLine .gap cs).map fun ts => closeWord m (.comma :: ts)
    else if c = '"' then (lexLine (.text []) cs).map (closeWord m)
    else match m with
      | .word acc => lexLine (.word (c :: acc)) cs
      | _ => lexLine (.word [c]) cs

/-- The value of a digit below `base`. -/
def digitValue (base : Nat) (c : Char) : Option Nat :=
  let v := if '0' ≤ c ∧ c ≤ '9' then some (c.toNat - '0'.toNat)
    else if 'a' ≤ c ∧ c ≤ 'f' then some (c.toNat - 'a'.toNat + 10)
    else if 'A' ≤ c ∧ c ≤ 'F' then some (c.toNat - 'A'.toNat + 10)
    else none
  v.filter (· < base)

/-- Digits most significant first, on top of `acc`. -/
def digitsValue (base : Nat) : Nat → List Char → Option Nat
  | acc, [] => some acc
  | acc, c :: cs => (digitValue base c).bind fun d => digitsValue base (base * acc + d) cs

/-- A number: decimal, or hexadecimal with a `0x` prefix (R98). -/
def parseNumber : List Char → Option Nat
  | [] => none
  | ['0', 'x'] => none
  | '0' :: 'x' :: cs => digitsValue 16 0 cs
  | cs => digitsValue 10 0 cs

/-- A number that fits `w` bits; one out of range is refused, not truncated (R98). -/
def parseOperand (w : Nat) (cs : List Char) : Option (BitVec w) :=
  (parseNumber cs).bind fun n => if n < 2 ^ w then some (BitVec.ofNat w n) else none

/-- The operands of `absorb.bytes`: numbers separated by commas (R99). -/
def parseByteList : List Token → Option (List Byte)
  | [.word cs] => (parseOperand 8 cs).map ([·])
  | .word cs :: .comma :: rest => (parseOperand 8 cs).bind fun b => (parseByteList rest).map (b :: ·)
  | _ => none

/-- The ASCII encoding of a text; a non-ASCII character is refused (R99). -/
def asciiBytes : List Char → Option (List Byte)
  | [] => some []
  | c :: cs => if c.toNat < 128 then (asciiBytes cs).map (BitVec.ofNat 8 c.toNat :: ·) else none

/-- One `absorb` for each byte, in order (R99). -/
def absorbAll (bytes : List Byte) : List Instr := bytes.map .absorbByte

/-- `rddigest`: `rdword 0` through `rdword 7`, in order (R99). -/
def readDigestCommands : List Instr := (List.range 8).map fun i => .readDigestWord (BitVec.ofNat 3 i)

/-- `hash.str` (R99), on the bytes of the text. -/
def hashCommands (bytes : List Byte) : List Instr := [.init] ++ absorbAll bytes ++ [.finalize] ++ readDigestCommands

/-- The commands of one line (R98, R99); a line with no token has none. -/
def parseLine : List Token → Option (List Instr)
  | [] => some []
  | [.word m] =>
    if m = "nop".toList then some [.nop]
    else if m = "init".toList then some [.init]
    else if m = "finalize".toList then some [.finalize]
    else if m = "rdstatus".toList then some [.readStatus]
    else if m = "rddigest".toList then some readDigestCommands
    else none
  | [.word m, .text t] =>
    if m = "absorb.str".toList then (asciiBytes t).map absorbAll
    else if m = "hash.str".toList then (asciiBytes t).map hashCommands
    else none
  | .word m :: args =>
    if m = "absorb.bytes".toList then (parseByteList args).map absorbAll
    else match args with
      | [.word n] =>
        if m = "absorb".toList then (parseOperand 8 n).map fun b => [.absorbByte b]
        else if m = "rdbyte".toList then (parseOperand 5 n).map fun i => [.readDigestByte i]
        else if m = "rdword".toList then (parseOperand 3 n).map fun i => [.readDigestWord i]
        else none
      | _ => none
  | _ => none

/-- Assemble one line into its command words (R98). -/
def assembleLine (line : List Char) : Option (List Word) :=
  ((lexLine .gap line).bind parseLine).map fun is => is.map encode

/-- Assemble a command program, straight-line and in order (R98, 45_control.md R255). -/
def assemble : List (List Char) → Option (List Word)
  | [] => some []
  | line :: rest => (assembleLine line).bind fun ws => (assemble rest).map (ws ++ ·)

end Sys2Proof.Machine
end

