-- ==== Sys2Proof/Config.lean ====
section
/-! DEFINITION. The two parameters the spec leaves OPEN (00_scope.md R8). They are arguments of the platform
(Machine/Platform.lean), never constants: a claim about a platform holds for every value of them. -/

namespace Sys2Proof

/-- What a platform fixes and the spec does not (R8; 93_implementation_defined.md U14, U15). -/
structure Config where
  /-- N_INST, the number of independent `sha256_core` instances (R8, R314). -/
  nInst : Nat
  /-- CMD_PORT_BASE, where the platform maps the command and response port (R8, R68). The core has no address
  space, so no rule reads it (log 11). -/
  cmdPortBase : Nat
  deriving DecidableEq, Repr

end Sys2Proof
end

