-- ==== Sys2Proof/Machine/Platform.lean ====
section
/-! DEFINITION. A platform of N_INST instances (60_exceptions.md R314): the product of independent single-instance models,
every interleaving admitted (20_memory.md R72; log 11). -/

namespace Sys2Proof.Machine

/-- The instances of a platform. They share only the ROMs (10_state.md R48), and have no identifiers visible to
commands: the index is the platform's own. -/
structure Platform (cfg : Config) where
  insts : Vector State cfg.nInst
  deriving DecidableEq, Repr

/-- The three outcomes of a step of a platform. -/
abbrev PlatformResult (cfg : Config) := Host.Outcome (Platform cfg) Fault Refusal

/-- Every instance right after its own reset (R314). -/
def Platform.reset (cfg : Config) : Platform cfg := ⟨Vector.replicate cfg.nInst State.reset⟩

/-- Instance `i` takes one step; the others stay (R72). -/
def Platform.stepAt {cfg : Config} (i : Fin cfg.nInst) (p : Platform cfg) : PlatformResult cfg :=
  match step p.insts[i] with
  | .next t => .next ⟨p.insts.set i.val t⟩
  | .fault r => .fault r
  | .refused r => .refused r

/-- The platform's run under one interleaving: which instance steps, in order. -/
def Platform.run {cfg : Config} : List (Fin cfg.nInst) → Platform cfg → PlatformResult cfg
  | [], p => .next p
  | i :: sched, p =>
    match p.stepAt i with
    | .next q => Platform.run sched q
    | .fault r => .fault r
    | .refused r => .refused r

end Sys2Proof.Machine
end

