-- ==== Sys2Proof/Machine/Reference.lean ====
section
/-! DEFINITION. The source's algorithm as pure functions: Pad and PadBytes (40_preprocessor.md R122, R124), Chunk
(41_chunker.md R150), Expand (42_schedule_expander.md R175), Compress (43_compressor.md R210), Serialize and Hex
(44_output_serializer.md R230, R236), and the reference function sha256 (00_scope.md R14). The command machine does not
call them; it is held to them. -/

namespace Sys2Proof.Machine

/-- The bit sequence of a message: bit position 8i+j holds M[i][7-j] (20_memory.md R60). -/
def bits (M : List Byte) : List Bool := M.flatMap fun b => (List.range 8).map fun j => b.getLsbD (7 - j)

/-- `bits64(v) = [v[63], ..., v[0]]` (R122). -/
def bits64 (v : BitVec 64) : List Bool := (List.range 64).map fun j => v.getLsbD (63 - j)

/-- `k = (447 - Lb) mod 512`, in 0..511 (R122). -/
def padBitCount (lb : Nat) : Nat := ((447 - (lb : Int)) % 512).toNat

/-- `z = (55 - L) mod 64`, in 0..63 (R124). -/
def padByteCount (L : Nat) : Nat := ((55 - (L : Int)) % 64).toNat

/-- Pad at bit level (R122). Defined for |M| <= MAX_MSG_BYTES only (R121; log 13). -/
def pad (M : List Byte) : Option (List Bool) :=
  if M.length ≤ maxMsgBytes then
    some (bits M ++ [true] ++ List.replicate (padBitCount (8 * M.length)) false
      ++ bits64 (BitVec.ofNat 64 (8 * M.length)))
  else none

/-- The bytes PadBytes adds to a message of `L` bytes (R124). -/
def paddingBytes (L : Nat) : List Byte :=
  [0x80#8] ++ List.replicate (padByteCount L) 0x00#8 ++ bytesBE64 (BitVec.ofNat 64 (8 * L))

/-- PadBytes, Pad at byte level (R124). Defined for |M| <= MAX_MSG_BYTES only (R121; log 13). -/
def padBytes (M : List Byte) : Option (List Byte) :=
  if M.length ≤ maxMsgBytes then some (M ++ paddingBytes M.length) else none

/-- `B_n = Q[64n .. 64n+63]` (R150). It is read only where all 64 bytes exist. -/
def blockAt (Q : List Byte) (n : Nat) : Vector Byte 64 := Vector.ofFn fun i => Q.getD (64 * n + i.val) 0#8

/-- Chunk (R150): the |Q| / 64 blocks of Q in order. -/
def chunk (Q : List Byte) : List (Vector Byte 64) := (List.range (Q.length / 64)).map (blockAt Q)

/-- `be32(B[4t..4t+3])`, W[t] for t in 0..15 (R175, 20_memory.md R61). -/
def seedWord (B : Vector Byte 64) (t : Fin 16) : Word :=
  be32 B[4 * t.val] B[4 * t.val + 1] B[4 * t.val + 2] B[4 * t.val + 3]

/-- W with the 16 seed words in place and the rest, which `expand` derives, still zero. -/
def seedSchedule (B : Vector Byte 64) : Vector Word 64 :=
  Vector.ofFn fun t => if h : t.val < 16 then seedWord B ⟨t.val, h⟩ else 0#32

/-- W[16 + k] from the words before it (R175). -/
def extendSchedule (W : Vector Word 64) (k : Fin 48) : Vector Word 64 :=
  W.set (k.val + 16) (scheduleWord W[k.val] W[k.val + 1] W[k.val + 9] W[k.val + 14])

/-- Expand (R175): the 16 seed words, then W[16], ..., W[63] in increasing order (R174). -/
def expand (B : Vector Byte 64) : Vector Word 64 := (List.finRange 48).foldl extendSchedule (seedSchedule B)

/-- `v_64` of R210: the 64 rounds from `v`, in increasing t (R206). -/
def rounds (W : Vector Word 64) (v : Working) : Working :=
  (List.finRange 64).foldl (fun v t => roundF v Rom.K[t] W[t]) v

/-- Compress (R210). -/
def compress (H : Vector Word 8) (W : Vector Word 64) : Vector Word 8 := foldHash H (rounds W (Working.ofHash H))

/-- The Hash State after the blocks, in order, from `H` (R211). -/
def chain (H : Vector Word 8) (blocks : List (Vector Byte 64)) : Vector Word 8 :=
  blocks.foldl (fun H B => compress H (expand B)) H

/-- Serialize (R230): 32 bytes, each word most-significant byte first. -/
def serialize (H : Vector Word 8) : List Byte := H.toList.flatMap bytesBE32

/-- The reference function `sha256(M)` for |M| <= MAX_MSG_BYTES (R14; log 13). -/
def sha256 (M : List Byte) : Option (List Byte) := (padBytes M).map fun Q => serialize (chain Rom.H0 (chunk Q))

/-- A lowercase hexadecimal digit (R236). -/
def hexDigit (n : BitVec 4) : Char :=
  ['0', '1', '2', '3', '4', '5', '6', '7', '8', '9', 'a', 'b', 'c', 'd', 'e', 'f'].getD n.toNat '0'

/-- Hex (R236), the host's text form: two digits a byte, high nibble first. -/
def hex (D : List Byte) : List Char := D.flatMap fun b => [hexDigit (b.extractLsb' 4 4), hexDigit (b.extractLsb' 0 4)]

end Sys2Proof.Machine
end

