-- ==== Sys2Proof/Safety.lean ====
section
/-! DEFINITION. What the claims are stated in: the invariant of 10_state.md R46 and R47, the progress of one message, the
end of a computation (45_control.md R257), and what the host can see. -/

namespace Sys2Proof.Machine

/-- What holds between commands: R47 (ii) to (v) and the count of (i), SEQ Idle (R43), and R46's argument that every
element a command can read has been written. -/
structure State.Inv (s : State) : Prop where
  /-- "Between commands SEQ is always Idle" (R43). -/
  seqIdle : s.seq = .idle
  /-- R47 (iv). -/
  causeOfNoErr : s.err = false → s.cause = .none
  /-- R47 (v). -/
  causeOfErr : s.err = true → s.cause ≠ .none
  /-- R47 (iii). -/
  idleEmpty : s.phase = .idle → s.bufLen = 0#7 ∧ s.msgLen = 0#61
  /-- R47 (i). -/
  absorbCount : s.phase = .absorb → s.bufLen.toNat = s.msgLen.toNat % 64
  /-- R47 (ii). -/
  doneEmpty : s.phase = .done → s.bufLen = 0#7
  /-- R46: H is written once a phase that reads it is reached. -/
  hashWritten : s.phase ≠ .idle → s.H.isSome
  /-- R46, R37: BUF[0..BUF_LEN-1] is written. -/
  bufWritten : ∀ i : Fin 64, i.val < s.bufLen.toNat → s.buf[i].isSome

/-- The core has absorbed exactly the bytes `M` since INIT, with no fault (R36, R37, R47 (i), R154): its full blocks are in
H, in order, and its tail is in BUF. -/
structure State.Absorbed (M : List Byte) (s : State) : Prop where
  noErr : s.err = false
  inAbsorb : s.phase = .absorb
  count : s.msgLen.toNat = M.length
  tailLength : s.bufLen.toNat = M.length % 64
  tail : ∀ i : Fin 64, i.val < M.length % 64 → s.buf[i] = some (M.getD (64 * (M.length / 64) + i.val) 0#8)
  hash : s.H = some (chain Rom.H0 (chunk M))

/-- A digest computation has ended (R257): DONE with ERR = 0. A state with ERR = 1 never is (R305). -/
def State.Ended (s : State) : Prop := s.phase = .done ∧ s.err = false

/-- No run from `s`, however long, stops in a fault or a refusal of the model. -/
def State.Safe (s : State) : Prop := ∀ n, ∃ t, Host.Core.run Sys2Proof.core n s = .next t

/-- What a host can see or already knows outside DONE: the fields of the status word (R44), and the two ports. H, W, a..h,
BUF and MSG_LEN are not in it (60_exceptions.md R315, 44_output_serializer.md R232). -/
structure State.SameView (s t : State) : Prop where
  phase : s.phase = t.phase
  err : s.err = t.err
  cause : s.cause = t.cause
  bufLen : s.bufLen = t.bufLen
  pending : s.pending = t.pending
  responses : s.responses = t.responses

end Sys2Proof.Machine
end

