-- ==== Sys2Proof/Certificates/Slice0/Obligations.lean ====
section
/-! DEFINITION. The statements for the provers, from the numbered rules of spec/. They are written with numbers and the
spec's own formulas where a rule gives one, rather than with the model's functions. -/

open Sys2Proof Sys2Proof.Machine

/-! ## Words the statements share -/

/-- PHASE as a number (R33). -/
def Sys2Proof.Machine.phaseNumber : Phase → Nat
  | .idle => 0
  | .absorb => 1
  | .done => 2

/-- CAUSE as a number (R302). -/
def Sys2Proof.Machine.causeNumber : Cause → Nat
  | .none => 0
  | .illegalOpcode => 1
  | .reservedField => 2
  | .wrongPhase => 3
  | .lengthOverflow => 4

/-- The status word as a number: PHASE at bit 0, ERR at bit 2, BUF_LEN[5:0] at bit 4, CAUSE at bit 12 (R44). -/
def Sys2Proof.Machine.statusNumber (s : State) : Nat :=
  phaseNumber s.phase + 4 * s.err.toNat + 16 * (s.bufLen.toNat % 64) + 4096 * causeNumber s.cause

/-- The outcome in which the core latches the fault `c` (R301): ERR, CAUSE and a response of 0, nothing else. -/
def Sys2Proof.Machine.latched (c : Cause) (s : State) : Result :=
  .next { s with err := true, cause := c, responses := 0#32 :: s.responses }

/-- The outcome in which the core changes no state and answers `v` (R250, R305). -/
def Sys2Proof.Machine.answered (v : Word) (s : State) : Result := .next { s with responses := v :: s.responses }

/-- Some reserved bit of the format of a defined OP is 1 (R92): the low 28 bits do not fit the operand. -/
def Sys2Proof.reservedBitSet (w : Word) : Prop :=
  let op := w.toNat / 2 ^ 28
  let low := w.toNat % 2 ^ 28
  ((op = 0 ∨ op = 1 ∨ op = 3 ∨ op = 6) ∧ low ≠ 0) ∨ (op = 2 ∧ 2 ^ 8 ≤ low) ∨ (op = 4 ∧ 2 ^ 5 ≤ low) ∨
    (op = 5 ∧ 2 ^ 3 ≤ low)

/-! ## The decoder -/

/-- R95: every word is exactly one of a command, ILLEGAL_OPCODE and RESERVED_FIELD, and which one; with the operand bits
of the command. -/
def Obligations.DecodeClassifiesEveryWord : Prop :=
  ∀ w : Word,
    let op := w.toNat / 2 ^ 28
    (7 ≤ op → decode w = .illegal .illegalOpcode) ∧
    (op < 7 → reservedBitSet w → decode w = .illegal .reservedField) ∧
    (¬ reservedBitSet w →
      (op = 0 → decode w = .cmd .nop) ∧
      (op = 1 → decode w = .cmd .init) ∧
      (op = 2 → decode w = .cmd (.absorbByte (BitVec.ofNat 8 w.toNat))) ∧
      (op = 3 → decode w = .cmd .finalize) ∧
      (op = 4 → decode w = .cmd (.readDigestByte (BitVec.ofNat 5 w.toNat))) ∧
      (op = 5 → decode w = .cmd (.readDigestWord (BitVec.ofNat 3 w.toNat))) ∧
      (op = 6 → decode w = .cmd .readStatus))

/-- Decode and encode agree on every word and every command, with every operand value: `encode i` is the one word that
decodes to `i`. -/
def Obligations.DecodeAndEncodeAgree : Prop :=
  ∀ (w : Word) (i : Instr), decode w = .cmd i ↔ w = encode i

/-- R94: a word selects a command when (word & mask) = match, for every row of the opcode map, the illegal rows 0x7..0xF
among them. -/
def Obligations.OpcodeMapSelectsCommands : Prop :=
  ∀ w : Word,
    (w &&& 0xFFFFFFFF#32 = 0x00000000#32 ↔ decode w = .cmd .nop) ∧
    (w &&& 0xFFFFFFFF#32 = 0x10000000#32 ↔ decode w = .cmd .init) ∧
    (w &&& 0xFFFFFF00#32 = 0x20000000#32 ↔ ∃ data, decode w = .cmd (.absorbByte data)) ∧
    (w &&& 0xFFFFFFFF#32 = 0x30000000#32 ↔ decode w = .cmd .finalize) ∧
    (w &&& 0xFFFFFFE0#32 = 0x40000000#32 ↔ ∃ idx, decode w = .cmd (.readDigestByte idx)) ∧
    (w &&& 0xFFFFFFF8#32 = 0x50000000#32 ↔ ∃ widx, decode w = .cmd (.readDigestWord widx)) ∧
    (w &&& 0xFFFFFFFF#32 = 0x60000000#32 ↔ decode w = .cmd .readStatus) ∧
    ((∃ op : Fin 16, 7 ≤ op.val ∧ w &&& 0xF0000000#32 = BitVec.ofNat 32 (op.val * 2 ^ 28)) ↔
      decode w = .illegal .illegalOpcode)

/-- Words of every format, written out from 95_test_vectors.md section 2.6, decode as it says. -/
def Obligations.SampleWordsDecode : Prop :=
  decode 0x00000000#32 = .cmd .nop ∧ decode 0x10000000#32 = .cmd .init ∧
  decode 0x200000ff#32 = .cmd (.absorbByte 0xff#8) ∧ decode 0x30000000#32 = .cmd .finalize ∧
  decode 0x4000001f#32 = .cmd (.readDigestByte 31#5) ∧ decode 0x50000007#32 = .cmd (.readDigestWord 7#3) ∧
  decode 0x60000000#32 = .cmd .readStatus ∧ decode 0x20000100#32 = .illegal .reservedField ∧
  decode 0x40000020#32 = .illegal .reservedField ∧ decode 0x50000008#32 = .illegal .reservedField ∧
  decode 0x08000001#32 = .illegal .reservedField ∧ decode 0x70000000#32 = .illegal .illegalOpcode ∧
  decode 0xffffffff#32 = .illegal .illegalOpcode

/-! ## The step -/

/-- A step takes the host's next input and runs it: the decoded command (R253), the fault path of an illegal word, or, with
ERR = 1, nothing (R305); a hardware reset (R400). The model's own choices, no rule: that a reset keeps what is pending and
what has been answered (log 5), that with no input pending the state stays (log 4), and that `withFetchWord` presents the
low bits of a number as the next input (logs 2 and 14). -/
def Obligations.StepRunsThePresentedInput : Prop :=
  ∀ (s : State) (rest : List HostInput),
    (∀ w i, s.pending = .command w :: rest → decode w = .cmd i → step s = exec i { s with pending := rest }) ∧
    (∀ w, s.pending = .command w :: rest → s.err = false →
      (decode w = .illegal .illegalOpcode → step s = latched .illegalOpcode { s with pending := rest }) ∧
      (decode w = .illegal .reservedField → step s = latched .reservedField { s with pending := rest })) ∧
    (∀ w why, s.pending = .command w :: rest → s.err = true → decode w = .illegal why →
      step s = answered 0#32 { s with pending := rest }) ∧
    (s.pending = .reset :: rest → step s = .next { State.reset with pending := rest, responses := s.responses }) ∧
    (s.pending = [] → step s = .next s) ∧
    (∀ nbits w i, nbits ≤ 32 → w < 2 ^ nbits → decode (BitVec.ofNat 32 w) = .cmd i →
      step (s.withFetchWord nbits w) = exec i s)

/-- R90: a command word presented is taken, and answered by exactly one response, which is 0 unless the command is
READ_STATUS, or a digest read in DONE with ERR = 0. -/
def Obligations.EveryCommandHasOneResponse : Prop :=
  ∀ (s t : State) (w : Word) (rest : List HostInput), s.pending = .command w :: rest → step s = .next t →
    t.pending = rest ∧ ∃ v, t.responses = v :: s.responses ∧
      (v ≠ 0#32 → w = 0x60000000#32 ∨
        (s.err = false ∧ s.phase = .done ∧ (w.toNat / 2 ^ 28 = 4 ∨ w.toNat / 2 ^ 28 = 5)))

/-! ## The control commands -/

/-- R250: NOP answers 0 and changes no state, in every phase and whatever ERR is; its word is 0 exactly, and any other word
of its OP faults. -/
def Obligations.NopDoesNothing : Prop :=
  (∀ s : State, exec .nop s = answered 0#32 s) ∧ encode .nop = 0#32 ∧
  (∀ (s : State) (w : Word), s.err = false → w.toNat / 2 ^ 28 = 0 → w ≠ 0#32 →
    runCommand w s = latched .reservedField s) ∧
  (∀ t, exec .nop State.reset = .next t → statusNumber t = 0)

/-- R251: INIT, in every phase, loads H0, clears MSG_LEN and BUF_LEN and enters ABSORB; BUF, W, a..h, ERR and CAUSE keep
their values; INIT; INIT equals INIT; with ERR = 1 it is ignored; other words of its OP fault. -/
def Obligations.InitStartsADigest : Prop :=
  (∀ s : State, s.err = false →
    exec .init s = .next { s with H := some Rom.H0, msgLen := 0#61, bufLen := 0#7, phase := .absorb,
                                  responses := 0#32 :: s.responses }) ∧
  (∀ s : State, s.err = true → exec .init s = answered 0#32 s) ∧
  encode .init = 0x10000000#32 ∧
  (∀ (s : State) (w : Word), s.err = false → w.toNat / 2 ^ 28 = 1 → w ≠ 0x10000000#32 →
    runCommand w s = latched .reservedField s) ∧
  (∀ s t : State, s.err = false → exec .init s = .next t → exec .init t = answered 0#32 t) ∧
  (∀ s t : State, s.err = false → s.cause = .none → exec .init s = .next t → statusNumber t = 1)

/-- R252 with the layout of R44: READ_STATUS answers the status word and changes no state, in every phase and whatever ERR
is; other words of its OP fault, or are ignored when ERR = 1. Between commands BUF_LEN reads 0 in DONE and MSG_LEN mod 64
in ABSORB. After `absorb` against an IDLE core it answers 0x00003004. -/
def Obligations.ReadStatusReportsTheState : Prop :=
  (∀ s : State, exec .readStatus s = answered (BitVec.ofNat 32 (statusNumber s)) s) ∧
  encode .readStatus = 0x60000000#32 ∧
  (∀ (s : State) (w : Word), w.toNat / 2 ^ 28 = 6 → w ≠ 0x60000000#32 →
    runCommand w s = if s.err then answered 0#32 s else latched .reservedField s) ∧
  (∀ s : State, s.Inv → (s.phase = .done → s.bufLen.toNat % 64 = 0) ∧
    (s.phase = .absorb → s.bufLen.toNat % 64 = s.msgLen.toNat % 64)) ∧
  (∀ (s t : State) (data : Byte), s.Inv → s.err = false → s.phase = .idle → exec (.absorbByte data) s = .next t →
    exec .readStatus t = answered 0x00003004#32 t)

/-! ## The digest reads -/

/-- R234: READ_DIGEST_BYTE answers byte IDX of the digest in DONE with ERR = 0 and changes no state; outside DONE it
latches WRONG_PHASE; with ERR = 1 it is ignored; a word with a reserved bit set faults whatever the phase. -/
def Obligations.ReadDigestByteAnswersTheByte : Prop :=
  (∀ (s : State) (idx : BitVec 5) (h : Vector Word 8), s.err = false → s.phase = .done → s.H = some h →
    exec (.readDigestByte idx) s = answered (BitVec.ofNat 32
      ((h[idx.toNat / 4]'(by have := idx.isLt; omega)).toNat / 2 ^ (24 - 8 * (idx.toNat % 4)) % 2 ^ 8)) s) ∧
  (∀ (s : State) (idx : BitVec 5), s.err = false → s.phase ≠ .done →
    exec (.readDigestByte idx) s = latched .wrongPhase s) ∧
  (∀ (s : State) (idx : BitVec 5), s.err = true → exec (.readDigestByte idx) s = answered 0#32 s) ∧
  (∀ idx : BitVec 5, encode (.readDigestByte idx) = BitVec.ofNat 32 (0x40000000 + idx.toNat)) ∧
  (∀ (s : State) (w : Word), s.err = false → w.toNat / 2 ^ 28 = 4 → 2 ^ 5 ≤ w.toNat % 2 ^ 28 →
    runCommand w s = latched .reservedField s)

/-- R235: READ_DIGEST_WORD answers H[WIDX] in DONE with ERR = 0 and changes no state; outside DONE it latches WRONG_PHASE;
with ERR = 1 it is ignored; a word with a reserved bit set faults whatever the phase. -/
def Obligations.ReadDigestWordAnswersTheWord : Prop :=
  (∀ (s : State) (widx : BitVec 3) (h : Vector Word 8), s.err = false → s.phase = .done → s.H = some h →
    exec (.readDigestWord widx) s = answered (h[widx.toNat]'widx.isLt) s) ∧
  (∀ (s : State) (widx : BitVec 3), s.err = false → s.phase ≠ .done →
    exec (.readDigestWord widx) s = latched .wrongPhase s) ∧
  (∀ (s : State) (widx : BitVec 3), s.err = true → exec (.readDigestWord widx) s = answered 0#32 s) ∧
  (∀ widx : BitVec 3, encode (.readDigestWord widx) = BitVec.ofNat 32 (0x50000000 + widx.toNat)) ∧
  (∀ (s : State) (w : Word), s.err = false → w.toNat / 2 ^ 28 = 5 → 2 ^ 3 ≤ w.toNat % 2 ^ 28 →
    runCommand w s = latched .reservedField s)

/-- The two read widths agree: the word read i answers the four byte reads 4i..4i+3, most significant first, and each of
the five leaves the state but for its response. -/
def Obligations.ReadWidthsAgree : Prop :=
  ∀ (s : State) (i : Fin 8), s.err = false → s.phase = .done → s.H.isSome →
    ∃ w b0 b1 b2 b3 : Word,
      exec (.readDigestWord (BitVec.ofNat 3 i.val)) s = answered w s ∧
      exec (.readDigestByte (BitVec.ofNat 5 (4 * i.val))) s = answered b0 s ∧
      exec (.readDigestByte (BitVec.ofNat 5 (4 * i.val + 1))) s = answered b1 s ∧
      exec (.readDigestByte (BitVec.ofNat 5 (4 * i.val + 2))) s = answered b2 s ∧
      exec (.readDigestByte (BitVec.ofNat 5 (4 * i.val + 3))) s = answered b3 s ∧
      w.toNat = b0.toNat * 2 ^ 24 + b1.toNat * 2 ^ 16 + b2.toNat * 2 ^ 8 + b3.toNat

/-- Digest reads, READ_STATUS and NOP are repeatable: any run of them in DONE with ERR = 0 and H written goes on, and leaves
every element of the core as it was. -/
def Obligations.ReadsAreRepeatable : Prop :=
  ∀ (cs : List Instr) (s : State), s.err = false → s.phase = .done → s.H.isSome →
    (∀ c ∈ cs, c = .nop ∨ c = .readStatus ∨ (∃ idx, c = .readDigestByte idx) ∨ ∃ widx, c = .readDigestWord widx) →
    ∃ vs : List Word, vs.length = cs.length ∧ forEach exec cs s = .next { s with responses := vs ++ s.responses }

/-! ## Absorbing and finalizing -/

/-- ABSORB_BYTE that does not fill the buffer: it counts the byte, writes BUF[BUF_LEN] and moves BUF_LEN on; H, W, a..h, every
other entry of BUF and every control element keep their values. -/
def Obligations.AbsorbByteBuffersTheByte : Prop :=
  ∀ (s : State) (data : Byte), s.err = false → s.phase = .absorb → s.msgLen.toNat < 2 ^ 61 - 1 →
    ∀ h : s.bufLen.toNat < 63,
      exec (.absorbByte data) s =
        .next { s with msgLen := s.msgLen + 1#61, buf := s.buf.set s.bufLen.toNat (some data) (by omega),
                       bufLen := s.bufLen + 1#7, responses := 0#32 :: s.responses }

/-- ABSORB_BYTE of the byte that fills the buffer: the block in BUF, with the byte last, is processed inside the command, and
BUF_LEN is 0 again. The whole next state. That BUF, W and a..h keep the block's contents is the model's choice, which U10
leaves open (log 7), and so is that a start with SEQ other than Idle is no different (log 15). -/
def Obligations.AbsorbByteProcessesTheFullBlock : Prop :=
  ∀ (s : State) (data : Byte) (B : Vector Byte 64) (h : Vector Word 8), s.err = false → s.phase = .absorb →
    s.msgLen.toNat < 2 ^ 61 - 1 → s.bufLen.toNat = 63 → (∀ i : Fin 64, i.val < 63 → s.buf[i] = some B[i]) →
    B[63] = data → s.H = some h →
    exec (.absorbByte data) s =
      .next { s with msgLen := s.msgLen + 1#61, buf := B.map some, bufLen := 0#7, W := (expand B).map some,
                     work := some (rounds (expand B) (Working.ofHash h)), H := some (compress h (expand B)),
                     seq := .idle, responses := 0#32 :: s.responses }

/-- FINALIZE in ABSORB: the bytes in BUF, 0x80, zeros to 56 mod 64 and the eight length bytes of 8 x MSG_LEN make one block
when BUF_LEN <= 55 and two when BUF_LEN >= 56; they are processed in order, and PHASE is DONE. The whole next state; MSG_LEN
is not changed. That BUF, W and a..h keep the last block's contents is the model's choice, which U10 leaves open (log 7), and
so is that a start with SEQ other than Idle is no different (log 15). -/
def Obligations.FinalizeProcessesThePaddedTail : Prop :=
  ∀ (s : State) (tail : List Byte) (h : Vector Word 8), s.err = false → s.phase = .absorb →
    tail.length = s.bufLen.toNat → s.bufLen.toNat < 64 →
    (∀ i : Fin 64, i.val < tail.length → s.buf[i] = some (tail.getD i.val 0#8)) → s.H = some h →
    let Q := tail ++ [0x80#8] ++ List.replicate ((119 - tail.length) % 64) 0x00#8 ++
      (List.range 8).map fun j => BitVec.ofNat 8 (8 * s.msgLen.toNat / 2 ^ (56 - 8 * j))
    ∃ (blocks : List (Vector Byte 64)) (last : Vector Byte 64),
      chunk Q = blocks ++ [last] ∧ Q.length = 64 * (blocks.length + 1) ∧
      blocks.length = (if s.bufLen.toNat ≤ 55 then 0 else 1) ∧
      exec .finalize s =
        .next { s with phase := .done, buf := last.map some, bufLen := 0#7, W := (expand last).map some,
                       work := some (rounds (expand last) (Working.ofHash (chain h blocks))),
                       H := some (chain h (blocks ++ [last])), seq := .idle, responses := 0#32 :: s.responses }

/-- Where ABSORB_BYTE and FINALIZE stop the model instead, states that no run from reset reaches: an element the block needs
holds no value (R46, U9; log 1), or BUF_LEN is over 63. The second is the model's own choice (log 8). -/
def Obligations.UnreachableStatesStopTheBlock : Prop :=
  ∀ (s : State) (data : Byte), s.err = false → s.phase = .absorb →
    (s.msgLen.toNat < 2 ^ 61 - 1 → 64 ≤ s.bufLen.toNat → exec (.absorbByte data) s = .fault .bufferIndex) ∧
    (64 ≤ s.bufLen.toNat → exec .finalize s = .fault .bufferIndex) ∧
    (s.bufLen.toNat < 64 → (s.H = none ∨ ∃ i : Fin 64, i.val < s.bufLen.toNat ∧ s.buf[i] = none) →
      (s.msgLen.toNat < 2 ^ 61 - 1 → s.bufLen.toNat = 63 → ∃ e, exec (.absorbByte data) s = .fault (.unwritten e)) ∧
      ∃ e, exec .finalize s = .fault (.unwritten e))

/-- A read of an element that holds no value is a model fault (R30, R46, U9) that names the element, for every element that a
reader of BUF, W, a..h and H reads. Where several hold none, the first that the rule's own expression reads is named, which is
the model's choice (log 1). -/
def Obligations.UnwrittenReadsAreModelFaults : Prop :=
  ∀ s : State,
    (∀ (t : Fin 16) (j : Fin 4), (∀ i : Fin 4, i < j → s.buf[4 * t.val + i.val].isSome) → s.buf[4 * t.val + j.val] = none →
      loadWord t s = .fault (.unwritten (.buf ⟨4 * t.val + j.val, by omega⟩))) ∧
    (∀ k : Fin 48,
      (s.W[k.val] = none → expandStep k s = .fault (.unwritten (.schedule ⟨k.val, by omega⟩))) ∧
      (s.W[k.val].isSome →
        (s.W[k.val + 1] = none → expandStep k s = .fault (.unwritten (.schedule ⟨k.val + 1, by omega⟩))) ∧
        (s.W[k.val + 1].isSome →
          (s.W[k.val + 9] = none → expandStep k s = .fault (.unwritten (.schedule ⟨k.val + 9, by omega⟩))) ∧
          (s.W[k.val + 9].isSome → s.W[k.val + 14] = none →
            expandStep k s = .fault (.unwritten (.schedule ⟨k.val + 14, by omega⟩)))))) ∧
    (∀ t : Fin 64, s.work = none → roundStep t s = .fault (.unwritten .working)) ∧
    (∀ t : Fin 64, s.work.isSome → s.W[t] = none → roundStep t s = .fault (.unwritten (.schedule t))) ∧
    (s.H.isSome → s.work = none → foldStep s = .fault (.unwritten .working)) ∧
    (s.H = none → initWorking s = .fault (.unwritten .hashState) ∧ foldStep s = .fault (.unwritten .hashState) ∧
      (s.err = false → s.phase = .done →
        (∀ idx, exec (.readDigestByte idx) s = .fault (.unwritten .hashState)) ∧
        ∀ widx, exec (.readDigestWord widx) s = .fault (.unwritten .hashState)))

/-! ## The micro-operations -/

/-- R171: LOAD_SCHEDULE copies the block into W[0..15], big-endian, and changes nothing else. -/
def Obligations.LoadScheduleCopiesTheBlock : Prop :=
  ∀ (s : State) (B : Vector Byte 64), s.buf = B.map some →
    ∃ W, loadSchedule s = .next { s with W := W } ∧
      (∀ t : Fin 16, W[t.val] = some (BitVec.ofNat 32
        (B[4 * t.val].toNat * 2 ^ 24 + B[4 * t.val + 1].toNat * 2 ^ 16 + B[4 * t.val + 2].toNat * 2 ^ 8 +
          B[4 * t.val + 3].toNat))) ∧
      (∀ t : Fin 64, 16 ≤ t.val → W[t] = s.W[t])

/-- R173: EXPAND_STEP(t) writes W[t] with the four-term sum, its carry discarded, and changes nothing else. -/
def Obligations.ExpandStepDerivesOneWord : Prop :=
  ∀ (s : State) (t : Nat) (h16 : 16 ≤ t) (h63 : t ≤ 63) (w16 w15 w7 w2 : Word),
    s.W[t - 16] = some w16 → s.W[t - 15] = some w15 → s.W[t - 7] = some w7 → s.W[t - 2] = some w2 →
    expandStep ⟨t - 16, by omega⟩ s =
      .next { s with W := s.W.set t (some (BitVec.ofNat 32
        (w16.toNat + (sigma0 w15).toNat + w7.toNat + (sigma1 w2).toNat))) }

/-- R204: INIT_WORKING copies H[0..7] into a..h and changes nothing else. -/
def Obligations.InitWorkingLoadsTheHash : Prop :=
  ∀ (s : State) (H : Vector Word 8), s.H = some H →
    initWorking s = .next { s with work := some ⟨H[0], H[1], H[2], H[3], H[4], H[5], H[6], H[7]⟩ }

/-- R205: ROUND(t) computes T1 and T2 from the values before the round, shifts the register chain, and changes nothing but
a..h. -/
def Obligations.RoundShiftsTheChain : Prop :=
  ∀ (s : State) (t : Fin 64) (v : Working) (w : Word), s.work = some v → s.W[t] = some w →
    let T1 := v.h.toNat + (bigSigma1 v.e).toNat + (ch v.e v.f v.g).toNat + Rom.K[t].toNat + w.toNat
    let T2 := (bigSigma0 v.a).toNat + (maj v.a v.b v.c).toNat
    let after : Working := ⟨BitVec.ofNat 32 (T1 + T2), v.a, v.b, v.c, BitVec.ofNat 32 (v.d.toNat + T1), v.e, v.f, v.g⟩
    roundStep t s = .next { s with work := some after }

/-- R208: FOLD adds a..h into H[0..7], all eight in one step, each modulo 2^32 with no carry between words, and changes nothing
else. -/
def Obligations.FoldAddsTheWorkingVariables : Prop :=
  ∀ (s : State) (H : Vector Word 8) (v : Working), s.H = some H → s.work = some v →
    foldStep s = .next { s with H := some #v[H[0] + v.a, H[1] + v.b, H[2] + v.c, H[3] + v.d, H[4] + v.e, H[5] + v.f,
                                             H[6] + v.g, H[7] + v.h] }

/-- R172, R191, R192, R193: the schedule functions and the round functions, as rotations and bit by bit, with the corner
values the rules give. -/
def Obligations.LogicalFunctionsAreTheSpecs : Prop :=
  (∀ x : Word, sigma0 x = x.rotateRight 7 ^^^ x.rotateRight 18 ^^^ x >>> 3) ∧
  (∀ x : Word, sigma1 x = x.rotateRight 17 ^^^ x.rotateRight 19 ^^^ x >>> 10) ∧
  (∀ x : Word, bigSigma0 x = x.rotateRight 2 ^^^ x.rotateRight 13 ^^^ x.rotateRight 22) ∧
  (∀ x : Word, bigSigma1 x = x.rotateRight 6 ^^^ x.rotateRight 11 ^^^ x.rotateRight 25) ∧
  (∀ (e f g : Word) (i : Nat), i < 32 →
    (ch e f g).getLsbD i = if e.getLsbD i then f.getLsbD i else g.getLsbD i) ∧
  (∀ (a b c : Word) (i : Nat), i < 32 → (maj a b c).getLsbD i =
    decide (2 ≤ (a.getLsbD i).toNat + (b.getLsbD i).toNat + (c.getLsbD i).toNat)) ∧
  sigma0 0#32 = 0#32 ∧ sigma1 0#32 = 0#32 ∧ sigma0 0xFFFFFFFF#32 = 0x1FFFFFFF#32 ∧
  sigma1 0xFFFFFFFF#32 = 0x003FFFFF#32 ∧ sigma0 1#32 = 0x02004000#32 ∧ sigma1 1#32 = 0x0000A000#32 ∧
  bigSigma0 0#32 = 0#32 ∧ bigSigma1 0#32 = 0#32 ∧ bigSigma0 0xFFFFFFFF#32 = 0xFFFFFFFF#32 ∧
  bigSigma1 0xFFFFFFFF#32 = 0xFFFFFFFF#32 ∧ bigSigma0 1#32 = 0x40080400#32 ∧ bigSigma1 1#32 = 0x04200080#32 ∧
  (∀ f g : Word, ch 0#32 f g = g ∧ ch 0xFFFFFFFF#32 f g = f) ∧
  (∀ x y : Word, maj x x y = x ∧ maj 0#32 0xFFFFFFFF#32 y = y)

/-- The word and byte primitives: sums wrap modulo 2^32, rotations and shifts bit by bit, and the big-endian byte order of
words and of the length field, each byte list giving its value back. -/
def Obligations.PrimitivesAreTheSpecs : Prop :=
  (∀ xs : List Word, (add32 xs).toNat = (xs.map BitVec.toNat).sum % 2 ^ 32) ∧
  (∀ (x : Word) (n i : Nat), 0 < n → n < 32 → i < 32 → (rotr x n).getLsbD i = x.getLsbD ((i + n) % 32)) ∧
  (∀ (x : Word) (n i : Nat), n < 32 → i < 32 → (shr x n).getLsbD i = (decide (i + n < 32) && x.getLsbD (i + n))) ∧
  (∀ b0 b1 b2 b3 : Byte, (be32 b0 b1 b2 b3).toNat =
      b0.toNat * 2 ^ 24 + b1.toNat * 2 ^ 16 + b2.toNat * 2 ^ 8 + b3.toNat ∧
    bytesBE32 (be32 b0 b1 b2 b3) = [b0, b1, b2, b3]) ∧
  (∀ v : BitVec 64, (bytesBE64 v).length = 8 ∧
    (bytesBE64 v).foldl (fun n b => 256 * n + b.toNat) 0 = v.toNat) ∧
  (∀ n : BitVec 61, (lengthBits n).toNat = 8 * n.toNat)

/-- The ROM tables are the roots R41 and R42 define: K[t] is floor(cbrt(p) x 2^32) mod 2^32 for the prime p of index t, H0[k] is
floor(sqrt(p) x 2^32) mod 2^32 for the prime p of index k. That the fraction is cut to 32 bits is a convention the spec marks
as general knowledge. -/
def Obligations.RomTablesAreTheFractionalRoots : Prop :=
  (∀ t : Fin 64, ∃ r : Nat, r ^ 3 ≤ Nat.nth Nat.Prime t.val * 2 ^ 96 ∧ Nat.nth Nat.Prime t.val * 2 ^ 96 < (r + 1) ^ 3 ∧
    Rom.K[t].toNat = r % 2 ^ 32) ∧
  (∀ k : Fin 8, ∃ r : Nat, r ^ 2 ≤ Nat.nth Nat.Prime k.val * 2 ^ 64 ∧ Nat.nth Nat.Prime k.val * 2 ^ 64 < (r + 1) ^ 2 ∧
    Rom.H0[k].toNat = r % 2 ^ 32)

/-! ## One block -/

/-- PROCESS_BLOCK is LOAD_SCHEDULE, EXPAND_STEP(16..63), INIT_WORKING, ROUND(0..63), FOLD, in the order of R209 (which others
may replace unseen: U17, log 10), from every state in which SEQ is Idle; SEQ is Idle again after it. -/
def Obligations.ProcessBlockRunsTheFiveStages : Prop :=
  ∀ s : State, s.seq = .idle →
    processBlock s =
      (andThen (loadSchedule s) fun s =>
       andThen (forEach (fun t s => expandStep (Fin.ofNat 48 (t - 16)) s) (List.range' 16 48) s) fun s =>
       andThen (initWorking s) fun s =>
       andThen (forEach (fun t s => roundStep (Fin.ofNat 64 t) s) (List.range' 0 64) s) foldStep)

/-- The micro-sequencer, stepped one position at a time from Load, runs PROCESS_BLOCK in 115 micro-operations, and rests at
Idle: the order of positions of R43 and the count of R413. -/
def Obligations.MicroSequencerRunsTheBlock : Prop :=
  (∀ s : State, (fun r => andThen r microStep)^[115] (.next { s with seq := .load }) = processBlock s) ∧
  (∀ s : State, s.seq = .idle → microStep s = .next s)

/-- PROCESS_BLOCK on a written block leaves H = Compress(H, Expand(block)) (R210), W = Expand(block), a..h as the 64 rounds left
them, and nothing else changed. That W and a..h keep these contents after the block is the model's choice, which U10 leaves
open (log 7). -/
def Obligations.ProcessBlockCompresses : Prop :=
  ∀ (s : State) (B : Vector Byte 64) (H : Vector Word 8), s.buf = B.map some → s.H = some H → s.seq = .idle →
    processBlock s = .next { s with W := (expand B).map some, work := some (rounds (expand B) (Working.ofHash H)),
                                    H := some (compress H (expand B)) }

/-- R175: Expand satisfies its defining recurrence at every index, and LOAD_SCHEDULE followed by the EXPAND_STEPs leaves
W = Expand(BUF) and nothing else changed. -/
def Obligations.ExpandSatisfiesItsRecurrence : Prop :=
  ∀ B : Vector Byte 64,
    (∀ t : Fin 16, (expand B)[t.val].toNat = B[4 * t.val].toNat * 2 ^ 24 + B[4 * t.val + 1].toNat * 2 ^ 16 +
      B[4 * t.val + 2].toNat * 2 ^ 8 + B[4 * t.val + 3].toNat) ∧
    (∀ (t : Nat) (h16 : 16 ≤ t) (h63 : t ≤ 63), (expand B)[t].toNat =
      ((expand B)[t - 16].toNat + (sigma0 (expand B)[t - 15]).toNat + (expand B)[t - 7].toNat +
        (sigma1 (expand B)[t - 2]).toNat) % 2 ^ 32) ∧
    (∀ s : State, s.buf = B.map some →
      andThen (loadSchedule s) (forEach expandStep (List.finRange 48)) = .next { s with W := (expand B).map some })

/-! ## The source's functions -/

/-- The byte-level padding is the bit-level padding: the bits of PadBytes(M) are Pad(M), for every M, each defined exactly
when the other is. -/
def Obligations.PadBytesIsPad : Prop := ∀ M : List Byte, (padBytes M).map bits = pad M

/-- R123: the padded length is the unique smallest multiple of 512 that is at least 8L + 65, and is 512 (floor((L + 8)/64) + 1);
Pad is defined for every message of at most 2^61 - 1 bytes. -/
def Obligations.PaddedLengthIsTheLeastMultiple : Prop :=
  ∀ M : List Byte, M.length ≤ 2 ^ 61 - 1 → ∃ P, pad M = some P ∧
    P.length % 512 = 0 ∧ 8 * M.length + 65 ≤ P.length ∧
    (∀ n, n % 512 = 0 → 8 * M.length + 65 ≤ n → P.length ≤ n) ∧
    P.length = 512 * ((8 * M.length + 64) / 512 + 1) ∧ P.length = 512 * ((M.length + 8) / 64 + 1)

/-- The blocks of a padded message: their number is floor((L + 8)/64) + 1, never 0, and laid end to end they are the padded
message: order kept, no overlap, no remainder. -/
def Obligations.ChunkPartitionsThePaddedMessage : Prop :=
  ∀ M Q : List Byte, padBytes M = some Q →
    (chunk Q).length = (M.length + 8) / 64 + 1 ∧ (chunk Q).flatMap Vector.toList = Q ∧
    ∀ (n : Nat) (h : n < (chunk Q).length) (i : Fin 64), Q[64 * n + i.val]? = some (chunk Q)[n][i]

/-- R230, R63: the digest is 32 bytes, byte 4i + j being H[i][31-8j : 24-8j]. -/
def Obligations.DigestIsBigEndian : Prop :=
  ∀ H : Vector Word 8, (serialize H).length = 32 ∧
    ∀ (i : Fin 8) (j : Fin 4),
      (serialize H)[4 * i.val + j.val]? = some (BitVec.ofNat 8 (H[i].toNat / 2 ^ (24 - 8 * j.val)))

/-- R236: Hex is two lowercase digits a byte, high nibble first; 64 characters for a digest. -/
def Obligations.HexIsTwoLowercaseDigitsAByte : Prop :=
  (∀ D : List Byte, (hex D).length = 2 * D.length ∧
    ∀ (n : Nat) (h : n < D.length),
      (hex D)[2 * n]? = "0123456789abcdef".toList[D[n].toNat / 16]? ∧
      (hex D)[2 * n + 1]? = "0123456789abcdef".toList[D[n].toNat % 16]?) ∧
  ∀ H : Vector Word 8, (hex (serialize H)).length = 64

/-! ## Faults -/

/-- R301, R303, R304, R306: with ERR = 0 a command word that meets a fault condition latches exactly one cause, the first in
the priority order, and changes nothing else; one that meets none leaves ERR and CAUSE alone. With ERR = 1 no check is made. -/
def Obligations.FirstFaultInPriorityIsLatched : Prop :=
  ∀ (s : State) (w : Word) (rest : List HostInput), s.pending = .command w :: rest →
    let op := w.toNat / 2 ^ 28
    let wrongPhase := ((op = 2 ∨ op = 3) ∧ s.phase ≠ .absorb) ∨ ((op = 4 ∨ op = 5) ∧ s.phase ≠ .done)
    let overflow := op = 2 ∧ s.msgLen.toNat = 2 ^ 61 - 1
    (s.err = true → w ≠ 0x60000000#32 → step s = answered 0#32 { s with pending := rest }) ∧
    (s.err = false →
      (7 ≤ op → step s = latched .illegalOpcode { s with pending := rest }) ∧
      (op < 7 → reservedBitSet w → step s = latched .reservedField { s with pending := rest }) ∧
      (op < 7 → ¬ reservedBitSet w → wrongPhase → step s = latched .wrongPhase { s with pending := rest }) ∧
      (op < 7 → ¬ reservedBitSet w → ¬ wrongPhase → overflow →
        step s = latched .lengthOverflow { s with pending := rest }) ∧
      (op < 7 → ¬ reservedBitSet w → ¬ wrongPhase → ¬ overflow →
        ∀ t, step s = .next t → t.err = false ∧ t.cause = s.cause))

/-- R305: with ERR = 1, READ_STATUS answers the status word, and NOP and every other word, INIT and the illegal words among
them, answer 0; no state changes; only reset clears ERR. -/
def Obligations.FaultedCoreObeysOnlyNopAndStatus : Prop :=
  ∀ (s : State) (rest : List HostInput), s.err = true →
    (s.pending = .command 0x60000000#32 :: rest →
      step s = answered (BitVec.ofNat 32 (statusNumber s)) { s with pending := rest }) ∧
    (∀ w, s.pending = .command w :: rest → w ≠ 0x60000000#32 → step s = answered 0#32 { s with pending := rest }) ∧
    (s.pending = .reset :: rest → ∃ t, step s = .next t ∧ t.err = false)

/-- ERR and CAUSE change only together on the fault path, and at reset: from ERR = 0 to 1 with a cause and nothing else changed,
and back to 0 only by a hardware reset. -/
def Obligations.ErrAndCauseChangeOnlyOnTheFaultPath : Prop :=
  ∀ (s t : State) (x : HostInput) (rest : List HostInput), s.pending = x :: rest → step s = .next t →
    (s.err = false → t.err = true → ∃ c, c ≠ Cause.none ∧ step s = latched c { s with pending := rest }) ∧
    (s.err = true → t.err = false → x = .reset) ∧
    (t.cause ≠ s.cause → x = .reset ∨ (s.err = false ∧ t.err = true))

/-- R33: PHASE after an input: IDLE after reset, ABSORB after an obeyed INIT, DONE after an obeyed FINALIZE in ABSORB, and
otherwise unchanged, by every other command and every fault. -/
def Obligations.OnlyInitFinalizeAndResetChangePhase : Prop :=
  ∀ (s t : State) (x : HostInput) (rest : List HostInput), s.pending = x :: rest → step s = .next t →
    (x = .reset → t.phase = .idle) ∧
    (x = .command 0x10000000#32 → s.err = false → t.phase = .absorb) ∧
    (x = .command 0x30000000#32 → s.err = false → s.phase = .absorb → t.phase = .done) ∧
    (t.phase ≠ s.phase → x = .reset ∨ (x = .command 0x10000000#32 ∧ s.err = false) ∨
      (x = .command 0x30000000#32 ∧ s.err = false ∧ s.phase = .absorb))

/-- MSG_LEN after a command: 0 after an obeyed INIT, one more, with no wrap, after an accepted ABSORB_BYTE, and unchanged by
everything else, FINALIZE included. -/
def Obligations.MessageLengthCountsAcceptedBytes : Prop :=
  ∀ (s t : State) (w : Word) (rest : List HostInput), s.pending = .command w :: rest → step s = .next t →
    (s.err = false → w = 0x10000000#32 → t.msgLen.toNat = 0) ∧
    (t.err = false → w.toNat / 2 ^ 28 = 2 → t.msgLen.toNat = s.msgLen.toNat + 1) ∧
    (t.err = true → t.msgLen = s.msgLen) ∧
    (w ≠ 0x10000000#32 → w.toNat / 2 ^ 28 ≠ 2 → t.msgLen = s.msgLen)

/-! ## Reset and the invariant -/

/-- R400: after hardware reset PHASE is IDLE, ERR, CAUSE, MSG_LEN and BUF_LEN are 0, SEQ is Idle, and H, BUF, W and a..h hold
no value; the status word is 0; no command clears ERR; an instance is reset on its own. `State.reset` is such a state. -/
def Obligations.ResetLeavesTheCoreUnstarted : Prop :=
  let Fresh (t : State) : Prop :=
    t.phase = .idle ∧ t.err = false ∧ t.cause = .none ∧ t.msgLen = 0#61 ∧ t.bufLen = 0#7 ∧ t.seq = .idle ∧
    t.H = none ∧ (∀ i : Fin 64, t.buf[i] = none) ∧ (∀ i : Fin 64, t.W[i] = none) ∧ t.work = none ∧ statusNumber t = 0
  Fresh State.reset ∧
  (∀ (s : State) (rest : List HostInput), s.pending = .reset :: rest → ∃ t, step s = .next t ∧ Fresh t) ∧
  (∀ (s t : State) (w : Word) (rest : List HostInput), s.pending = .command w :: rest → s.err = true →
    step s = .next t → t.err = true) ∧
  (∀ (cfg : Config) (p : Platform cfg) (i : Fin cfg.nInst) (rest : List HostInput),
    p.insts[i].pending = .reset :: rest →
    ∃ q, p.stepAt i = .next q ∧ Fresh q.insts[i] ∧ ∀ j : Fin cfg.nInst, j ≠ i → q.insts[j] = p.insts[j])

/-- The state after reset, whatever the host will give, meets the invariant. -/
def Obligations.ResetMeetsTheInvariant : Prop := ∀ inputs : List HostInput, { State.reset with pending := inputs }.Inv

/-- Every step keeps the invariant of R46 and R47, from every state that meets it. -/
def Obligations.StepKeepsTheInvariant : Prop := ∀ s t : State, s.Inv → step s = .next t → t.Inv

/-- From a state that meets the invariant no run, whatever the host gives and however long, stops in a fault or a refusal: no
element is read before it is written, and BUF is never written out of range. -/
def Obligations.RunsFromTheInvariantNeverStop : Prop := ∀ s : State, s.Inv → s.Safe

/-! ## The digest of a message -/

/-- An obeyed INIT starts the empty message, and each ABSORB_BYTE extends the message absorbed by its byte, up to 2^61 - 1
bytes: full blocks are in H in order, the tail in BUF, the count in MSG_LEN and BUF_LEN. -/
def Obligations.AbsorbByteExtendsTheMessage : Prop :=
  (∀ s : State, s.err = false → ∃ t, exec .init s = .next t ∧ t.Absorbed []) ∧
  (∀ (s : State) (M : List Byte) (b : Byte), s.Absorbed M → M.length < 2 ^ 61 - 1 →
    ∃ t, exec (.absorbByte b) s = .next t ∧ t.Absorbed (M ++ [b]))

/-- FINALIZE after the message M ends the computation with the digest sha256(M) in H. -/
def Obligations.FinalizeLeavesTheDigest : Prop :=
  ∀ (s : State) (M : List Byte), s.Absorbed M → M.length ≤ 2 ^ 61 - 1 →
    ∃ t h, exec .finalize s = .next t ∧ t.Ended ∧ t.H = some h ∧ sha256 M = some (serialize h)

/-- The command machine computes sha256: from any state with ERR = 0, INIT, the bytes of M, FINALIZE, each presented in turn,
end in DONE with ERR = 0 and Serialize(H) = sha256(M); every response on the way is 0; and each READ_DIGEST_BYTE j then answers
byte j of sha256(M). -/
def Obligations.CommandMachineComputesSha256 : Prop :=
  ∀ (s : State) (M : List Byte) (rest : List HostInput), s.err = false → M.length ≤ 2 ^ 61 - 1 →
    s.pending = .command 0x10000000#32 :: (M.map fun b => .command (BitVec.ofNat 32 (0x20000000 + b.toNat))) ++
      .command 0x30000000#32 :: rest →
    ∃ (t : State) (h : Vector Word 8) (digest : List Byte),
      Host.Core.run Sys2Proof.core (M.length + 2) s = .next t ∧ t.Ended ∧ t.H = some h ∧ t.pending = rest ∧
      t.responses = List.replicate (M.length + 2) 0#32 ++ s.responses ∧
      sha256 M = some digest ∧ serialize h = digest ∧ digest.length = 32 ∧
      ∀ j : BitVec 5, exec (.readDigestByte j) t = answered (BitVec.ofNat 32 (digest.getD j.toNat 0#8).toNat) t

/-! ## What no one can see or disturb -/

/-- Outside DONE with ERR = 0 no intermediate hash state can be read: two states that agree on the status fields and the ports
give the same responses, whatever H, W, a..h, BUF and MSG_LEN hold. -/
def Obligations.HiddenStateIsNotObservable : Prop :=
  ∀ s₁ s₂ t₁ t₂ : State, s₁.SameView s₂ → (s₁.phase ≠ .done ∨ s₁.err = true) →
    step s₁ = .next t₁ → step s₂ = .next t₂ → t₁.responses = t₂.responses

/-- Instances are independent (R72): whatever the interleaving, each instance ends where its own steps alone take it. That the
platform's run goes on exactly when every instance's own run does, one instance's model fault stopping it, is the model's
choice (log 11). -/
def Obligations.InterleavingChangesNoInstance : Prop :=
  ∀ (cfg : Config) (sched : List (Fin cfg.nInst)) (p q : Platform cfg),
    Platform.run sched p = .next q ↔
      ∀ i : Fin cfg.nInst, Host.Core.run Sys2Proof.core (sched.count i) p.insts[i] = .next q.insts[i]

/-! ## The assembler -/

/-- `ds` writes the number `n` as R98 allows: in decimal, or in hexadecimal after `0x`. -/
def Sys2Proof.Machine.writesNumber (ds : List Char) (n : Nat) : Prop :=
  ds = Nat.toDigits 10 n ∨ ds = '0' :: 'x' :: Nat.toDigits 16 n

/-- The mnemonics of R98 and the pseudo-commands of R99. -/
def Sys2Proof.Machine.listedMnemonics : List (List Char) :=
  ["nop".toList, "init".toList, "absorb".toList, "finalize".toList, "rdbyte".toList, "rdword".toList, "rdstatus".toList,
   "absorb.str".toList, "absorb.bytes".toList, "rddigest".toList, "hash.str".toList]

/-- The characters that end a word of a source line (log 12). -/
def Sys2Proof.Machine.wordEnders : List Char := [' ', '\t', ',', ';', '"']

/-- One word of a source line. -/
def Sys2Proof.Machine.isWord (m : List Char) : Prop := m ≠ [] ∧ ∀ c ∈ m, c ∉ wordEnders

/-- What follows a word on its line: nothing, or something that starts with a character that ends a word. -/
def Sys2Proof.Machine.startsOutside (rest : List Char) : Prop := ∀ c ∈ rest.head?, c ∈ wordEnders

/-- `ds` is no number of R98: without `0x`, some character is no decimal digit; after `0x`, there is no digit, or some character
is no hexadecimal digit, of either case (log 12). -/
def Sys2Proof.Machine.malformedNumber (ds : List Char) : Prop :=
  (¬ ['0', 'x'] <+: ds ∧ ∃ c ∈ ds, c ∉ "0123456789".toList) ∨
    ∃ hs, ds = '0' :: 'x' :: hs ∧ (hs = [] ∨ ∃ c ∈ hs, c ∉ "0123456789abcdefABCDEF".toList)

/-- The forms of R98, from the text of a line to its command words: the four plain mnemonics; the three with a number, in
decimal or 0x form, refused and not truncated where it does not fit the field; a first word that is no listed mnemonic, refused
whatever follows; and a comment, outside quotes, which changes nothing. What ends a word and a text is in log 12. -/
def Obligations.AssemblerEncodesItsForms : Prop :=
  (assembleLine "nop".toList = some [0x00000000#32] ∧ assembleLine "init".toList = some [0x10000000#32] ∧
    assembleLine "finalize".toList = some [0x30000000#32] ∧ assembleLine "rdstatus".toList = some [0x60000000#32]) ∧
  (∀ (ds : List Char) (n : Nat), writesNumber ds n →
    assembleLine ("absorb ".toList ++ ds) = (if n < 256 then some [BitVec.ofNat 32 (0x20000000 + n)] else none) ∧
    assembleLine ("rdbyte ".toList ++ ds) = (if n < 32 then some [BitVec.ofNat 32 (0x40000000 + n)] else none) ∧
    assembleLine ("rdword ".toList ++ ds) = (if n < 8 then some [BitVec.ofNat 32 (0x50000000 + n)] else none)) ∧
  (∀ m rest : List Char, isWord m → startsOutside rest → m ∉ listedMnemonics → assembleLine (m ++ rest) = none) ∧
  (∀ line comment : List Char, line.count '"' % 2 = 0 → assembleLine (line ++ ';' :: comment) = assembleLine line)

/-- The pseudo-commands of R99, from the text of a line to its command words: absorb.str and hash.str on every text without a
double quote, refused where a character is not ASCII; absorb.bytes on every list of numbers, refused where one does not fit
a byte; and rddigest. That a text ends at the next double quote is the model's choice (log 12). -/
def Obligations.AssemblerExpandsThePseudoCommands : Prop :=
  (∀ text : List Char, '"' ∉ text →
    let absorbs := text.map fun c => BitVec.ofNat 32 (0x20000000 + c.toNat)
    assembleLine ("absorb.str \"".toList ++ text ++ ['"']) =
      (if ∀ c ∈ text, c.toNat < 128 then some absorbs else none) ∧
    assembleLine ("hash.str \"".toList ++ text ++ ['"']) =
      (if ∀ c ∈ text, c.toNat < 128 then
        some ([0x10000000#32] ++ absorbs ++ [0x30000000#32, 0x50000000#32, 0x50000001#32, 0x50000002#32, 0x50000003#32,
          0x50000004#32, 0x50000005#32, 0x50000006#32, 0x50000007#32])
      else none)) ∧
  (∀ numbers : List (List Char × Nat), numbers ≠ [] → (∀ p ∈ numbers, writesNumber p.1 p.2) →
    assembleLine ("absorb.bytes ".toList ++ [',', ' '].intercalate (numbers.map Prod.fst)) =
      (if ∀ p ∈ numbers, p.2 < 256 then some (numbers.map fun p => BitVec.ofNat 32 (0x20000000 + p.2)) else none)) ∧
  assembleLine "rddigest".toList = some [0x50000000#32, 0x50000001#32, 0x50000002#32, 0x50000003#32, 0x50000004#32,
    0x50000005#32, 0x50000006#32, 0x50000007#32]

/-- What R98's forms refuse beside an operand out of range: a missing operand; an operand that is no number; a further word after
the operand; and any word after a mnemonic that takes none. What ends a word is in log 12. -/
def Obligations.AssemblerRefusesWrongOperands : Prop :=
  (assembleLine "absorb".toList = none ∧ assembleLine "rdbyte".toList = none ∧ assembleLine "rdword".toList = none) ∧
  (∀ m ∈ ["absorb".toList, "rdbyte".toList, "rdword".toList], ∀ ds rest : List Char, isWord ds → startsOutside rest →
    (malformedNumber ds → assembleLine (m ++ ' ' :: ds ++ rest) = none) ∧
    ∀ es : List Char, isWord es → assembleLine (m ++ ' ' :: ds ++ ' ' :: es ++ rest) = none) ∧
  (∀ m ∈ ["nop".toList, "init".toList, "finalize".toList, "rdstatus".toList], ∀ ds rest : List Char, isWord ds →
    startsOutside rest → assembleLine (m ++ ' ' :: ds ++ rest) = none)
end

