-- ==== Sys2Proof/Laws/Assembler.lean ====
section
/-! SUPPORT. What the lexer, the number reader and the pseudo-commands of the assembler do on the lines R98 and R99 show
(30_encoding.md). -/

namespace Sys2Proof.Machine

/-! ## The lexer -/

/-- The character neither separates words nor starts a text or a comment. -/
def plainChar (c : Char) : Prop := c ≠ ';' ∧ c ≠ ' ' ∧ c ≠ '\t' ∧ c ≠ ',' ∧ c ≠ '"'

/-- A plain character extends the word under way. -/
theorem lexLine_word_plain {c : Char} (h : plainChar c) (acc cs : List Char) :
    lexLine (.word acc) (c :: cs) = lexLine (.word (c :: acc)) cs := by
  obtain ⟨h₁, h₂, h₃, h₄, h₅⟩ := h
  simp [lexLine, h₁, h₂, h₃, h₄, h₅]

/-- A plain character starts a word. -/
theorem lexLine_gap_plain {c : Char} (h : plainChar c) (cs : List Char) :
    lexLine .gap (c :: cs) = lexLine (.word [c]) cs := by
  obtain ⟨h₁, h₂, h₃, h₄, h₅⟩ := h
  simp [lexLine, h₁, h₂, h₃, h₄, h₅]

/-- A run of plain characters extends the word under way. -/
theorem lexLine_word_run {cs : List Char} (h : ∀ c ∈ cs, plainChar c) (acc rest : List Char) :
    lexLine (.word acc) (cs ++ rest) = lexLine (.word (cs.reverse ++ acc)) rest := by
  induction cs generalizing acc with
  | nil => rfl
  | cons c cs ih =>
    rw [List.cons_append, lexLine_word_plain (h c (by simp)), ih fun d hd => h d (by simp [hd])]
    simp

/-- A run of plain characters is one word. -/
theorem lexLine_gap_run {cs : List Char} (h : ∀ c ∈ cs, plainChar c) (hne : cs ≠ []) (rest : List Char) :
    lexLine .gap (cs ++ rest) = lexLine (.word cs.reverse) rest := by
  cases cs with
  | nil => exact absurd rfl hne
  | cons c cs =>
    rw [List.cons_append, lexLine_gap_plain (h c (by simp)), lexLine_word_run fun d hd => h d (by simp [hd])]
    simp

theorem lexLine_word_end (acc : List Char) : lexLine (.word acc) [] = some [.word acc.reverse] := by
  simp [lexLine, closeWord]

theorem lexLine_word_space (acc cs : List Char) :
    lexLine (.word acc) (' ' :: cs) = (lexLine .gap cs).map (.word acc.reverse :: ·) := by
  simp [lexLine]; rfl

theorem lexLine_word_comma (acc cs : List Char) :
    lexLine (.word acc) (',' :: cs) = (lexLine .gap cs).map fun ts => .word acc.reverse :: .comma :: ts := by
  simp [lexLine]; rfl

/-- Between words there is no word to close. -/
theorem map_closeWord_gap (o : Option (List Token)) : o.map (closeWord .gap) = o := by
  cases o <;> rfl

theorem lexLine_gap_space (cs : List Char) : lexLine .gap (' ' :: cs) = lexLine .gap cs := by
  simp [lexLine, map_closeWord_gap]

theorem lexLine_gap_quote (cs : List Char) : lexLine .gap ('"' :: cs) = lexLine (.text []) cs := by
  simp [lexLine, map_closeWord_gap]

/-- A text runs to the next double quote. -/
theorem lexLine_text_run {cs : List Char} (h : '"' ∉ cs) (acc rest : List Char) :
    lexLine (.text acc) (cs ++ '"' :: rest) = (lexLine .gap rest).map (.text (acc.reverse ++ cs) :: ·) := by
  induction cs generalizing acc with
  | nil => simp [lexLine]
  | cons c cs ih =>
    have hc : c ≠ '"' := fun hc => h (by simp [hc])
    rw [List.cons_append, lexLine, if_neg hc, ih fun hm => h (by simp [hm])]
    simp

/-- Whatever ends the word under way, the word is the first token. -/
theorem lexLine_word_first (acc : List Char) {rest : List Char} (h : ∀ c ∈ rest.head?, ¬ plainChar c) :
    ∃ o : Option (List Token), lexLine (.word acc) rest = o.map (.word acc.reverse :: ·) := by
  cases rest with
  | nil => exact ⟨some [], lexLine_word_end acc⟩
  | cons c cs =>
    have hc := h c rfl
    simp only [lexLine]
    split
    · exact ⟨some [], rfl⟩
    · split
      · exact ⟨_, rfl⟩
      · split
        · exact ⟨(lexLine .gap cs).map (.comma :: ·), by rw [Option.map_map]; rfl⟩
        · split
          · exact ⟨_, rfl⟩
          · simp_all [plainChar]

/-- A comment adds nothing to a line that is outside quotes where the comment starts. -/
theorem lexLine_comment (comment : List Char) (line : List Char) (m : LexMode)
    (h : (∃ acc, m = .text acc) ↔ line.count '"' % 2 = 1) :
    lexLine m (line ++ ';' :: comment) = lexLine m line := by
  induction line generalizing m with
  | nil =>
    cases m with
    | text acc => simp at h
    | _ => simp [lexLine]
  | cons c cs ih =>
    have hgap : cs.count '"' % 2 = 0 → lexLine .gap (cs ++ ';' :: comment) = lexLine .gap cs := fun h => ih _ (by simp [h])
    have hword : ∀ acc, cs.count '"' % 2 = 0 → lexLine (.word acc) (cs ++ ';' :: comment) = lexLine (.word acc) cs :=
      fun acc h => ih _ (by simp [h])
    have htext : ∀ acc, cs.count '"' % 2 = 1 → lexLine (.text acc) (cs ++ ';' :: comment) = lexLine (.text acc) cs :=
      fun acc h => ih _ (by simp [h])
    by_cases hc : c = '"'
    · subst hc
      rw [List.count_cons_self] at h
      cases m with
      | text acc =>
        have : cs.count '"' % 2 = 0 := by have := h.1 ⟨_, rfl⟩; omega
        simp [lexLine, hgap this]
      | _ =>
        have : cs.count '"' % 2 = 1 := by
          by_contra hne
          simpa using h.2 (by omega)
        simp [lexLine, htext _ this]
    · rw [List.count_cons_of_ne hc] at h
      cases m with
      | text acc => simp only [List.cons_append, lexLine, if_neg hc, htext _ (h.1 ⟨_, rfl⟩)]
      | _ =>
        have : cs.count '"' % 2 = 0 := by
          by_contra hne
          simpa using h.2 (by omega)
        simp only [List.cons_append, lexLine, if_neg hc, hgap this, hword _ this]

/-! ## Numbers -/

/-- The digit a number below the base is written with reads back. -/
theorem digitValue_digitChar {base d : Nat} (hb : base ≤ 16) (hd : d < base) :
    digitValue base d.digitChar = some d := by
  have : ∀ (b : Fin 17) (d : Fin 16), d.val < b.val → digitValue b.val d.val.digitChar = some d.val := by decide +kernel
  exact this ⟨base, by omega⟩ ⟨d, by omega⟩ hd

theorem digitsValue_append (base : Nat) (xs ys : List Char) (acc : Nat) :
    digitsValue base acc (xs ++ ys) = (digitsValue base acc xs).bind fun a => digitsValue base a ys := by
  induction xs generalizing acc with
  | nil => rfl
  | cons x xs ih =>
    simp only [List.cons_append, digitsValue, ih]
    cases digitValue base x <;> rfl

/-- The digits a number is written with read back. -/
theorem digitsValue_toDigits {base : Nat} (h1 : 1 < base) (h16 : base ≤ 16) (n : Nat) :
    digitsValue base 0 (Nat.toDigits base n) = some n := by
  induction n using Nat.strongRecOn with
  | _ n ih =>
    rw [Nat.toDigits_eq_if h1]
    split
    · next h => simp [digitsValue, digitValue_digitChar h16 h]
    · next h =>
      rw [digitsValue_append, ih _ (Nat.div_lt_self (by omega) h1)]
      simp [digitsValue, digitValue_digitChar h16 (Nat.mod_lt n (by omega : base > 0)), Nat.div_add_mod]

/-- Every character of a list that reads as digits is a digit. -/
theorem isSome_digitValue_of_digitsValue {base acc n : Nat} {cs : List Char} (h : digitsValue base acc cs = some n) :
    ∀ c ∈ cs, (digitValue base c).isSome := by
  induction cs generalizing acc with
  | nil => simp
  | cons x xs ih =>
    obtain ⟨d, hd, h⟩ := Option.bind_eq_some_iff.1 h
    simp only [List.mem_cons, forall_eq_or_imp, hd, Option.isSome_some, true_and]
    exact ih h

theorem toDigits_ne_nil {base : Nat} (h : 1 < base) (n : Nat) : Nat.toDigits base n ≠ [] := by
  rw [Nat.toDigits_eq_if h]
  split <;> simp

/-- A digit, or the `x` of a prefix, is a plain character. -/
theorem plainChar_of_digit {base : Nat} {c : Char} (h : (digitValue base c).isSome ∨ c = 'x') : plainChar c := by
  obtain h | rfl := h
  · refine ⟨?_, ?_, ?_, ?_, ?_⟩ <;> rintro rfl <;> simp [digitValue] at h
  · simp [plainChar]

/-! ## Operands -/

theorem asciiBytes_eq (t : List Char) :
    asciiBytes t = if ∀ c ∈ t, c.toNat < 128 then some (t.map fun c => BitVec.ofNat 8 c.toNat) else none := by
  induction t with
  | nil => simp [asciiBytes]
  | cons c cs ih =>
    simp only [asciiBytes, ih, List.forall_mem_cons]
    by_cases h : c.toNat < 128 <;> by_cases h' : ∀ d ∈ cs, d.toNat < 128 <;> simp [h, h']

theorem parseOperand_of_number {cs : List Char} {n : Nat} (h : parseNumber cs = some n) (w : Nat) :
    parseOperand w cs = if n < 2 ^ w then some (BitVec.ofNat w n) else none := by
  rw [parseOperand, h, Option.bind_some]

/-- What a line whose first two tokens are words stands for, `absorb.bytes` apart: one of the three forms with a number, and only
where no third token follows. -/
theorem parseLine_two_words {m : List Char} (hm : m ≠ "absorb.bytes".toList) (ds : List Char) (ts : List Token) :
    parseLine (.word m :: .word ds :: ts) =
      if ts = [] then
        if m = "absorb".toList then (parseOperand 8 ds).map fun b => [.absorbByte b]
        else if m = "rdbyte".toList then (parseOperand 5 ds).map fun i => [.readDigestByte i]
        else if m = "rdword".toList then (parseOperand 3 ds).map fun i => [.readDigestWord i]
        else none
      else none := by
  cases ts with
  | nil => simp only [parseLine, if_neg hm, if_true]
  | cons t ts => simp only [parseLine, if_neg hm, if_neg (List.cons_ne_nil t ts)]

end Sys2Proof.Machine
end

