-- ==== Sys2Proof/Laws/State.lean ====
section
/-! SUPPORT. One lemma per field per named update of State, each true by rfl: no later proof unfolds an update. -/

namespace Sys2Proof.Machine

@[simp] theorem State.respond_phase (s : State) (v : Word) : (s.respond v).phase = s.phase := rfl
@[simp] theorem State.respond_err (s : State) (v : Word) : (s.respond v).err = s.err := rfl
@[simp] theorem State.respond_cause (s : State) (v : Word) : (s.respond v).cause = s.cause := rfl
@[simp] theorem State.respond_msgLen (s : State) (v : Word) : (s.respond v).msgLen = s.msgLen := rfl
@[simp] theorem State.respond_buf (s : State) (v : Word) : (s.respond v).buf = s.buf := rfl
@[simp] theorem State.respond_bufLen (s : State) (v : Word) : (s.respond v).bufLen = s.bufLen := rfl
@[simp] theorem State.respond_H (s : State) (v : Word) : (s.respond v).H = s.H := rfl
@[simp] theorem State.respond_W (s : State) (v : Word) : (s.respond v).W = s.W := rfl
@[simp] theorem State.respond_work (s : State) (v : Word) : (s.respond v).work = s.work := rfl
@[simp] theorem State.respond_seq (s : State) (v : Word) : (s.respond v).seq = s.seq := rfl
@[simp] theorem State.respond_pending (s : State) (v : Word) : (s.respond v).pending = s.pending := rfl
@[simp] theorem State.respond_responses (s : State) (v : Word) : (s.respond v).responses = v :: s.responses := rfl

@[simp] theorem State.writeW_phase (s : State) (t : Fin 64) (w : Word) : (s.writeW t w).phase = s.phase := rfl
@[simp] theorem State.writeW_err (s : State) (t : Fin 64) (w : Word) : (s.writeW t w).err = s.err := rfl
@[simp] theorem State.writeW_cause (s : State) (t : Fin 64) (w : Word) : (s.writeW t w).cause = s.cause := rfl
@[simp] theorem State.writeW_msgLen (s : State) (t : Fin 64) (w : Word) : (s.writeW t w).msgLen = s.msgLen := rfl
@[simp] theorem State.writeW_buf (s : State) (t : Fin 64) (w : Word) : (s.writeW t w).buf = s.buf := rfl
@[simp] theorem State.writeW_bufLen (s : State) (t : Fin 64) (w : Word) : (s.writeW t w).bufLen = s.bufLen := rfl
@[simp] theorem State.writeW_H (s : State) (t : Fin 64) (w : Word) : (s.writeW t w).H = s.H := rfl
@[simp] theorem State.writeW_W (s : State) (t : Fin 64) (w : Word) : (s.writeW t w).W = s.W.set t (some w) := rfl
@[simp] theorem State.writeW_work (s : State) (t : Fin 64) (w : Word) : (s.writeW t w).work = s.work := rfl
@[simp] theorem State.writeW_seq (s : State) (t : Fin 64) (w : Word) : (s.writeW t w).seq = s.seq := rfl
@[simp] theorem State.writeW_pending (s : State) (t : Fin 64) (w : Word) : (s.writeW t w).pending = s.pending := rfl
@[simp] theorem State.writeW_responses (s : State) (t : Fin 64) (w : Word) : (s.writeW t w).responses = s.responses := rfl

@[simp] theorem hardwareReset_phase (s : State) : (hardwareReset s).phase = State.reset.phase := rfl
@[simp] theorem hardwareReset_err (s : State) : (hardwareReset s).err = State.reset.err := rfl
@[simp] theorem hardwareReset_cause (s : State) : (hardwareReset s).cause = State.reset.cause := rfl
@[simp] theorem hardwareReset_msgLen (s : State) : (hardwareReset s).msgLen = State.reset.msgLen := rfl
@[simp] theorem hardwareReset_buf (s : State) : (hardwareReset s).buf = State.reset.buf := rfl
@[simp] theorem hardwareReset_bufLen (s : State) : (hardwareReset s).bufLen = State.reset.bufLen := rfl
@[simp] theorem hardwareReset_H (s : State) : (hardwareReset s).H = State.reset.H := rfl
@[simp] theorem hardwareReset_W (s : State) : (hardwareReset s).W = State.reset.W := rfl
@[simp] theorem hardwareReset_work (s : State) : (hardwareReset s).work = State.reset.work := rfl
@[simp] theorem hardwareReset_seq (s : State) : (hardwareReset s).seq = State.reset.seq := rfl
@[simp] theorem hardwareReset_pending (s : State) : (hardwareReset s).pending = s.pending := rfl
@[simp] theorem hardwareReset_responses (s : State) : (hardwareReset s).responses = s.responses := rfl

end Sys2Proof.Machine
end

