-- ==== Sys2Proof/Laws/Ops.lean ====
section
/-! SUPPORT. What the shared operations of Machine/Ops.lean can do, said once: sequencing, element reads, the ERR and phase
gates, the fault path. -/

namespace Sys2Proof.Machine

@[simp] theorem andThen_next (s : State) (f : State → Result) : andThen (.next s) f = f s := rfl
@[simp] theorem andThen_fault (r : Fault) (f : State → Result) : andThen (.fault r) f = .fault r := rfl
@[simp] theorem andThen_refused (r : Refusal) (f : State → Result) : andThen (.refused r) f = .refused r := rfl

/-- A sequence answers next exactly when both parts do. -/
theorem andThen_eq_next {r : Result} {f : State → Result} {t : State} :
    andThen r f = .next t ↔ ∃ s, r = .next s ∧ f s = .next t := by
  cases r <;> simp [andThen]

theorem andThen_assoc (r : Result) (f g : State → Result) :
    andThen (andThen r f) g = andThen r fun s => andThen (f s) g := by
  cases r <;> rfl

theorem andThen_next_right (r : Result) : andThen r .next = r := by
  cases r <;> rfl

@[simp] theorem forEach_nil {α : Type} (f : α → State → Result) (s : State) : forEach f [] s = .next s := rfl

@[simp] theorem forEach_cons {α : Type} (f : α → State → Result) (x : α) (xs : List α) (s : State) :
    forEach f (x :: xs) s = andThen (f x s) (forEach f xs) := rfl

theorem forEach_append {α : Type} (f : α → State → Result) (xs ys : List α) (s : State) :
    forEach f (xs ++ ys) s = andThen (forEach f xs s) (forEach f ys) := by
  induction xs generalizing s with
  | nil => rfl
  | cons x xs ih => simp only [List.cons_append, forEach_cons, andThen_assoc, funext ih]

theorem forEach_map {α β : Type} (f : β → State → Result) (g : α → β) (xs : List α) (s : State) :
    forEach f (xs.map g) s = forEach (fun x => f (g x)) xs s := by
  induction xs generalizing s with
  | nil => rfl
  | cons x xs ih => simp only [List.map_cons, forEach_cons, funext ih]

/-- A property every body keeps is kept by the loop. -/
theorem forEach_keeps {α : Type} {f : α → State → Result} {P : State → Prop}
    (hf : ∀ x s t, P s → f x s = .next t → P t) {xs : List α} {s t : State} (hs : P s)
    (h : forEach f xs s = .next t) : P t := by
  induction xs generalizing s with
  | nil => cases h; exact hs
  | cons x xs ih =>
    obtain ⟨u, hu, h⟩ := andThen_eq_next.1 h
    exact ih (hf x s u hs hu) h

@[simp] theorem readElement_some {α : Type} (e : Element) (v : α) (k : α → Result) :
    readElement e (some v) k = k v := rfl

@[simp] theorem readElement_none {α : Type} (e : Element) (k : α → Result) :
    readElement e (none : Option α) k = .fault (.unwritten e) := rfl

/-- A read goes on exactly when the element holds a value. -/
theorem readElement_eq_next {α : Type} {e : Element} {o : Option α} {k : α → Result} {t : State} :
    readElement e o k = .next t ↔ ∃ v, o = some v ∧ k v = .next t := by
  cases o <;> simp

theorem unlessErr_of_err {s : State} (h : s.err = true) (body : State → Result) :
    unlessErr s body = .next (s.respond 0#32) := by
  simp [unlessErr, h]

theorem unlessErr_of_noErr {s : State} (h : s.err = false) (body : State → Result) : unlessErr s body = body s := by
  simp [unlessErr, h]

/-- With ERR = 1 a gated command is ignored; with ERR = 0 its body runs. -/
theorem unlessErr_eq_next {s t : State} {body : State → Result} :
    unlessErr s body = .next t ↔
      (s.err = true ∧ t = s.respond 0#32) ∨ (s.err = false ∧ body s = .next t) := by
  cases h : s.err <;> simp [unlessErr, h, eq_comm]

theorem inPhase_of_eq {p : Phase} {s : State} (h : s.phase = p) (body : State → Result) : inPhase p s body = body s :=
  if_pos h

theorem inPhase_of_ne {p : Phase} {s : State} (h : s.phase ≠ p) (body : State → Result) :
    inPhase p s body = faultStep .wrongPhase s :=
  if_neg h

/-- In its phase a command's body runs; outside it the core latches WRONG_PHASE. -/
theorem inPhase_eq_next {p : Phase} {s t : State} {body : State → Result} :
    inPhase p s body = .next t ↔
      (s.phase = p ∧ body s = .next t) ∨ (s.phase ≠ p ∧ faultStep .wrongPhase s = .next t) := by
  by_cases h : s.phase = p <;> simp [inPhase, h]

/-- The fault path always goes on, to one state. -/
theorem faultStep_eq_next {c : Cause} {s t : State} :
    faultStep c s = .next t ↔ t = { s with err := true, cause := c }.respond 0#32 := by
  simp [faultStep, eq_comm]

/-- An illegal word always goes on: ignored with ERR = 1, latched with ERR = 0. -/
theorem illegalCommand_eq_next {why : Illegal} {s t : State} :
    illegalCommand why s = .next t ↔
      (s.err = true ∧ t = s.respond 0#32) ∨
      (s.err = false ∧ t = { s with err := true, cause := illegalCause why }.respond 0#32) := by
  simp only [illegalCommand, unlessErr_eq_next, faultStep_eq_next]

end Sys2Proof.Machine
end

