-- ==== Sys2Proof/Laws/Loops.lean ====
section
/-! SUPPORT. Loops of the shared operation `forEach` as folds, and folds that set a vector's entries. -/

namespace Sys2Proof.Machine

/-- A loop whose body always goes on, under a property the body keeps, is a fold. -/
theorem forEach_eq_foldl {α : Type} {f : α → State → Result} {g : State → α → State} {P : State → Prop}
    (hf : ∀ x s, P s → f x s = .next (g s x) ∧ P (g s x)) (xs : List α) {s : State} (hs : P s) :
    forEach f xs s = .next (xs.foldl g s) ∧ P (xs.foldl g s) := by
  induction xs generalizing s with
  | nil => exact ⟨rfl, hs⟩
  | cons x xs ih =>
    obtain ⟨hx, hp⟩ := hf x s hs
    simp only [forEach_cons, hx, andThen_next, List.foldl_cons]
    exact ih hp

/-- An entry after a fold that sets distinct positions `j x` to `v x`: the value set, or the old one. -/
theorem getElem_foldl_set {α β : Type} {n : Nat} (j : α → Fin n) (v : α → β) (xs : List α) (A : Vector β n) (i : Fin n) :
    ((∀ x ∈ xs, j x ≠ i) → (xs.foldl (fun A x => A.set (j x).val (v x)) A)[i] = A[i]) ∧
    (∀ x ∈ xs, j x = i → (∀ y ∈ xs, j y = i → v y = v x) →
      (xs.foldl (fun A x => A.set (j x).val (v x)) A)[i] = v x) := by
  induction xs generalizing A with
  | nil => simp
  | cons y ys ih =>
    obtain ⟨ih₁, ih₂⟩ := ih (A.set (j y).val (v y))
    have hset : j y = i → (A.set (j y).val (v y))[i] = v y := by rintro rfl; simp
    have hset' : j y ≠ i → (A.set (j y).val (v y))[i] = A[i] := fun h =>
      Vector.getElem_set_ne _ _ fun h' => h (Fin.ext h')
    constructor
    · intro h
      simp only [List.mem_cons, forall_eq_or_imp] at h
      rw [List.foldl_cons, ih₁ h.2, hset' h.1]
    · intro x hx hxi hv
      rw [List.foldl_cons]
      by_cases hlater : ∃ z ∈ ys, j z = i
      · obtain ⟨z, hz, hzi⟩ := hlater
        rw [ih₂ z hz hzi fun w hw hwi => by
          rw [hv w (List.mem_cons_of_mem _ hw) hwi, hv z (List.mem_cons_of_mem _ hz) hzi]]
        exact hv z (List.mem_cons_of_mem _ hz) hzi
      · simp only [not_exists, not_and] at hlater
        obtain rfl | hx := List.mem_cons.1 hx
        · rw [ih₁ hlater, hset hxi]
        · exact absurd hxi (hlater x hx)

end Sys2Proof.Machine
end

