-- ==== Sys2Proof/Laws/Block.lean ====
section
/-! SUPPORT. What the micro-operations and PROCESS_BLOCK do: on elements that hold values, and, when they answer next at all,
what they leave unchanged. -/

namespace Sys2Proof.Machine

/-! ## The expander -/

theorem loadWord_of_written {s : State} {B : Vector Byte 64} (hb : s.buf = B.map some) (t : Fin 16) :
    loadWord t s = .next (s.writeW ⟨t, by omega⟩ (seedWord B t)) := by
  simp [loadWord, readBuf, hb, seedWord]

theorem foldl_writeW {α : Type} (j : α → Fin 64) (v : α → Word) (xs : List α) (s : State) :
    xs.foldl (fun s x => s.writeW (j x) (v x)) s =
      { s with W := xs.foldl (fun A x => A.set (j x).val (some (v x))) s.W } := by
  induction xs generalizing s with
  | nil => rfl
  | cons x xs ih => rw [List.foldl_cons, List.foldl_cons, ih]; rfl

/-- W after LOAD_SCHEDULE on a block: the 16 seed words, the rest as before (R171). -/
def loadedSchedule (B : Vector Byte 64) (W : Vector (Option Word) 64) : Vector (Option Word) 64 :=
  Vector.ofFn fun t => if h : t.val < 16 then some (seedWord B ⟨t.val, h⟩) else W[t]

/-- The seed words set one by one are the loaded schedule. -/
theorem foldl_seed_eq_loadedSchedule (B : Vector Byte 64) (W : Vector (Option Word) 64) :
    (List.finRange 16).foldl (fun A (t : Fin 16) => A.set t.val (some (seedWord B t))) W = loadedSchedule B W := by
  refine Vector.ext fun i hi => ?_
  obtain ⟨h₁, h₂⟩ := getElem_foldl_set (fun t : Fin 16 => (⟨t, by omega⟩ : Fin 64)) (fun t => some (seedWord B t))
    (List.finRange 16) W ⟨i, hi⟩
  by_cases hi16 : i < 16
  · have := h₂ ⟨i, hi16⟩ (List.mem_finRange _) rfl fun y _ hy => by
      have : y = ⟨i, hi16⟩ := Fin.ext (by simpa using hy)
      rw [this]
    simpa [loadedSchedule, hi16] using this
  · have := h₁ fun x _ hx => hi16 (by have := x.isLt; simp at hx; omega)
    simpa [loadedSchedule, hi16] using this

/-- LOAD_SCHEDULE on a written block. -/
theorem loadSchedule_of_written {s : State} {B : Vector Byte 64} (hb : s.buf = B.map some) :
    loadSchedule s = .next { s with W := loadedSchedule B s.W } := by
  have h := (forEach_eq_foldl (f := loadWord)
    (g := fun s t => s.writeW ⟨t, by omega⟩ (seedWord B t)) (P := fun s => s.buf = B.map some)
    (fun t s hs => ⟨loadWord_of_written hs t, hs⟩) (List.finRange 16) hb).1
  rw [loadSchedule, h, foldl_writeW (fun t : Fin 16 => ⟨t, by omega⟩) (seedWord B), foldl_seed_eq_loadedSchedule]

/-- EXPAND_STEP(16 + k) on written operands. -/
theorem expandStep_of_written {s : State} {k : Fin 48} {w16 w15 w7 w2 : Word}
    (h16 : s.W[k.val] = some w16) (h15 : s.W[k.val + 1] = some w15) (h7 : s.W[k.val + 9] = some w7)
    (h2 : s.W[k.val + 14] = some w2) :
    expandStep k s = .next (s.writeW ⟨k + 16, by omega⟩ (scheduleWord w16 w15 w7 w2)) := by
  simp [expandStep, readW, h16, h15, h7, h2]

/-- The expansion steps from position `k` on, when the words before it hold those of `W`. -/
theorem forEach_expandStep_drop (n : Nat) : ∀ (k : Nat) (s : State) (W : Vector Word 64), k + n = 48 →
    (∀ (i : Nat) (hi : i < 64), i < 16 + k → s.W[i] = some W[i]) →
    forEach expandStep ((List.finRange 48).drop k) s =
      .next { s with W := (((List.finRange 48).drop k).foldl extendSchedule W).map some } := by
  induction n with
  | zero =>
    intro k s W hk hW
    obtain rfl : k = 48 := by omega
    have h : s.W = W.map some := Vector.ext fun i hi => by simpa using hW i hi (by omega)
    have hd : (List.finRange 48).drop 48 = [] := List.drop_of_length_le (by simp)
    rw [hd, List.foldl_nil, ← h]
    rfl
  | succ n ih =>
    intro k s W hk hW
    have hk48 : k < 48 := by omega
    have hdrop : (List.finRange 48).drop k = ⟨k, hk48⟩ :: (List.finRange 48).drop (k + 1) := by
      have hlen : k < (List.finRange 48).length := by rwa [List.length_finRange]
      rw [List.drop_eq_getElem_cons hlen, List.getElem_finRange]
      rfl
    rw [hdrop, forEach_cons, List.foldl_cons, expandStep_of_written (k := ⟨k, hk48⟩)
      (hW k (by omega) (by omega)) (hW (k + 1) (by omega) (by omega))
      (hW (k + 9) (by omega) (by omega)) (hW (k + 14) (by omega) (by omega)), andThen_next,
      ih (k + 1) _ (extendSchedule W ⟨k, hk48⟩) (by omega)]
    · rfl
    · intro i hi hik
      simp only [State.writeW_W, extendSchedule]
      by_cases h : k + 16 = i
      · subst h; simp
      · rw [Vector.getElem_set_ne _ _ h, Vector.getElem_set_ne _ _ h]
        exact hW i hi (by omega)

/-- The expansion of a loaded block is Expand of the block (R175). -/
theorem forEach_expandStep_of_loaded {s : State} {B : Vector Byte 64}
    (hW : ∀ t : Fin 16, s.W[t.val] = some (seedWord B t)) :
    forEach expandStep (List.finRange 48) s = .next { s with W := (expand B).map some } := by
  have h := forEach_expandStep_drop 48 0 s (seedSchedule B) rfl fun i hi hi16 => by
    have hi' : i < 16 := by omega
    simpa [seedSchedule, hi'] using hW ⟨i, hi'⟩
  simpa [expand] using h

/-! ## The compressor -/

theorem forEach_roundStep_of_written {s : State} {W : Vector Word 64} {v : Working} (hW : s.W = W.map some)
    (hv : s.work = some v) (ts : List (Fin 64)) :
    forEach roundStep ts s =
      .next { s with work := some (ts.foldl (fun v t => roundF v Rom.K[t] W[t]) v) } := by
  induction ts generalizing s v with
  | nil => simp [← hv]
  | cons t ts ih =>
    have : roundStep t s = .next { s with work := some (roundF v Rom.K[t] W[t]) } := by
      simp [roundStep, readWorking, readW, hv, hW]
    rw [forEach_cons, this, andThen_next]
    exact ih (s := { s with work := some (roundF v Rom.K[t] W[t]) }) hW rfl

/-! ## The micro-sequencer -/

/-- The micro-operations neither read nor write SEQ. -/
theorem microOp_withSeq (p q : Seq) (s : State) :
    microOp p { s with seq := q } = andThen (microOp p s) fun t => .next { t with seq := q } := by
  have hload : ∀ (ts : List (Fin 16)) (s : State), forEach loadWord ts { s with seq := q } =
      andThen (forEach loadWord ts s) fun t => .next { t with seq := q } := by
    intro ts
    induction ts with
    | nil => intro s; rfl
    | cons t ts ih =>
      intro s
      have hw : loadWord t { s with seq := q } = andThen (loadWord t s) fun t => .next { t with seq := q } := by
        simp only [loadWord, readBuf, readElement]
        repeat' split
        all_goals rfl
      rw [forEach_cons, forEach_cons, hw, andThen_assoc, andThen_assoc]
      simp only [andThen_next, ih]
  cases p with
  | load => exact hload _ s
  | idle => rfl
  | _ =>
    simp only [microOp, expandStep, initWorking, roundStep, foldStep, readW, readHash, readWorking, readElement]
    repeat' split
    all_goals rfl

/-- A run of positions is the run of their micro-operations, with SEQ after the last one at the end. -/
theorem forEach_microAt (ps : List Seq) (p q : Seq) (s : State) :
    forEach microAt (ps ++ [p]) { s with seq := q } =
      andThen (forEach microOp (ps ++ [p]) s) fun t => .next { t with seq := p.succ } := by
  have hone : ∀ (r q : Seq) (s : State), microAt r { s with seq := q } =
      andThen (microOp r s) fun t => .next { t with seq := r.succ } := by
    intro r q s
    rw [microAt, microOp_withSeq, andThen_assoc]
    rfl
  induction ps generalizing q s with
  | nil => simp only [List.nil_append, forEach_cons, hone, forEach_nil, andThen_assoc, andThen_next]
  | cons r ps ih =>
    simp only [List.cons_append, forEach_cons, hone, andThen_assoc, andThen_next, ih]

/-- PROCESS_BLOCK without SEQ: the five stages of R209 in order, from any state; SEQ is Idle at the end. -/
theorem processBlock_eq_stages (s : State) :
    processBlock s =
      andThen (loadSchedule s) fun s => andThen (forEach expandStep (List.finRange 48) s) fun s =>
      andThen (initWorking s) fun s => andThen (forEach roundStep (List.finRange 64) s) fun s =>
      andThen (foldStep s) fun t => .next { t with seq := .idle } := by
  rw [processBlock, blockSequence, forEach_microAt]
  simp only [List.append_assoc, List.cons_append, List.nil_append, forEach_cons, forEach_append, forEach_map,
    forEach_nil, Seq.succ, andThen_assoc, andThen_next]
  rfl

/-! ## What a stage leaves unchanged when it answers next -/

/-- Only W can differ. -/
def OnlyW (s t : State) : Prop := t = { s with W := t.W }

/-- LOAD_SCHEDULE writes W only. -/
theorem loadSchedule_frame {s t : State} (h : loadSchedule s = .next t) : OnlyW s t := by
  refine forEach_keeps (P := OnlyW s) (fun k u v hu hv => ?_) (rfl : OnlyW s s) h
  simp only [loadWord, readBuf, readElement_eq_next, Host.Outcome.next.injEq] at hv
  obtain ⟨_, _, _, _, _, _, _, _, rfl⟩ := hv
  rw [OnlyW] at hu ⊢
  rw [hu]; rfl

/-- The EXPAND_STEPs write W only. -/
theorem forEach_expandStep_frame {ks : List (Fin 48)} {s t : State} (h : forEach expandStep ks s = .next t) :
    OnlyW s t := by
  refine forEach_keeps (P := OnlyW s) (fun k u v hu hv => ?_) (rfl : OnlyW s s) h
  simp only [expandStep, readW, readElement_eq_next, Host.Outcome.next.injEq] at hv
  obtain ⟨_, _, _, _, _, _, _, _, rfl⟩ := hv
  rw [OnlyW] at hu ⊢
  rw [hu]; rfl

/-- The ROUNDs write a..h only. -/
theorem forEach_roundStep_frame {ts : List (Fin 64)} {s t : State} (h : forEach roundStep ts s = .next t) :
    t = { s with work := t.work } := by
  refine forEach_keeps (P := fun t => t = { s with work := t.work }) (fun k u v hu hv => ?_) rfl h
  simp only [roundStep, readWorking, readW, readElement_eq_next, Host.Outcome.next.injEq] at hv
  obtain ⟨_, _, _, _, rfl⟩ := hv
  rw [hu]

/-- When PROCESS_BLOCK answers next, only W, a..h and H can differ, SEQ is Idle, and H holds a value. -/
theorem processBlock_frame {s t : State} (h : processBlock s = .next t) :
    t = { s with W := t.W, work := t.work, H := t.H, seq := .idle } ∧ t.H.isSome := by
  rw [processBlock_eq_stages] at h
  obtain ⟨s₁, h₁, h⟩ := andThen_eq_next.1 h
  obtain ⟨s₂, h₂, h⟩ := andThen_eq_next.1 h
  obtain ⟨s₃, h₃, h⟩ := andThen_eq_next.1 h
  obtain ⟨s₄, h₄, h⟩ := andThen_eq_next.1 h
  obtain ⟨s₅, h₅, h⟩ := andThen_eq_next.1 h
  have e₁ := loadSchedule_frame h₁
  have e₂ := forEach_expandStep_frame h₂
  have e₄ := forEach_roundStep_frame h₄
  simp only [initWorking, readHash, readElement_eq_next, Host.Outcome.next.injEq] at h₃
  simp only [foldStep, readHash, readWorking, readElement_eq_next, Host.Outcome.next.injEq] at h₅
  obtain ⟨H, -, rfl⟩ := h₃
  obtain ⟨H', -, v, -, rfl⟩ := h₅
  cases h
  rw [OnlyW] at e₁ e₂
  rw [e₄, e₂, e₁]
  exact ⟨rfl, rfl⟩

end Sys2Proof.Machine
end

