-- ==== Sys2Proof/Laws/Stream.lean ====
section
/-! SUPPORT. APPEND and runs of it: what they leave unchanged, where BUF_LEN ends, and the stream of appended bytes as blocks in
H and a tail in BUF (41_chunker.md R152, R153). -/

namespace Sys2Proof.Machine

theorem andThen_congr {r : Result} {f g : State → Result} (h : ∀ t, r = .next t → f t = g t) :
    andThen r f = andThen r g := by
  cases r with
  | next t => exact h t rfl
  | _ => rfl

/-! ## Frames -/

/-- The elements APPEND can change: BUF, BUF_LEN, H, W, a..h and SEQ. -/
def OnlyBlockState (s t : State) : Prop :=
  t = { s with buf := t.buf, bufLen := t.bufLen, H := t.H, W := t.W, work := t.work, seq := t.seq }

theorem OnlyBlockState.trans {s t u : State} (h₁ : OnlyBlockState s t) (h₂ : OnlyBlockState t u) :
    OnlyBlockState s u := by
  rw [OnlyBlockState] at *
  rw [h₂, h₁]

/-- What APPEND does when it answers next. -/
structure AppendEffect (b : Byte) (s t : State) : Prop where
  frame : OnlyBlockState s t
  inRange : s.bufLen.toNat < 64
  bufLen : t.bufLen.toNat = (s.bufLen.toNat + 1) % 64
  buf : t.buf = s.buf.set s.bufLen.toNat (some b) inRange
  seq : t.seq = if s.bufLen.toNat = 63 then .idle else s.seq
  H : t.H.isSome = (s.H.isSome || s.bufLen.toNat == 63)

theorem storeByte_of_lt {b : Byte} {s : State} (h : s.bufLen.toNat < 64) :
    storeByte b s = .next { s with buf := s.buf.set s.bufLen.toNat (some b) h, bufLen := s.bufLen + 1#7 } :=
  dif_pos h

theorem storeByte_of_ge {b : Byte} {s : State} (h : ¬ s.bufLen.toNat < 64) : storeByte b s = .fault .bufferIndex :=
  dif_neg h

theorem bufLen_succ_toNat {n : BitVec 7} (h : n.toNat < 64) : (n + 1#7).toNat = n.toNat + 1 := by
  simp only [BitVec.toNat_add, BitVec.toNat_ofNat]; omega

theorem bufLen_succ_eq_full {n : BitVec 7} (h : n.toNat < 64) : n + 1#7 = 64#7 ↔ n.toNat = 63 := by
  rw [← BitVec.toNat_inj, bufLen_succ_toNat h]
  simp

/-- APPEND that does not fill the buffer. -/
theorem appendByte_of_lt {b : Byte} {s : State} (h : s.bufLen.toNat < 63) :
    appendByte b s =
      .next { s with buf := s.buf.set s.bufLen.toNat (some b) (by omega), bufLen := s.bufLen + 1#7 } := by
  have h64 : s.bufLen.toNat < 64 := by omega
  have hne : ¬ s.bufLen + 1#7 = 64#7 := by rw [bufLen_succ_eq_full h64]; omega
  rw [appendByte, storeByte_of_lt h64, andThen_next, processIfFull, if_neg hne]

/-- APPEND that fills the buffer processes the block. -/
theorem appendByte_of_full {b : Byte} {s : State} (h : s.bufLen.toNat = 63) :
    appendByte b s =
      andThen (processBlock { s with buf := s.buf.set s.bufLen.toNat (some b) (by omega), bufLen := s.bufLen + 1#7 })
        fun t => .next { t with bufLen := 0#7 } := by
  have h64 : s.bufLen.toNat < 64 := by omega
  rw [appendByte, storeByte_of_lt h64, andThen_next, processIfFull, if_pos ((bufLen_succ_eq_full h64).2 h)]

theorem appendByte_effect {b : Byte} {s t : State} (h : appendByte b s = .next t) : AppendEffect b s t := by
  by_cases h64 : s.bufLen.toNat < 64
  · by_cases h63 : s.bufLen.toNat = 63
    · rw [appendByte_of_full h63] at h
      obtain ⟨u, hu, h⟩ := andThen_eq_next.1 h
      obtain ⟨hfr, hH⟩ := processBlock_frame hu
      cases h
      rw [hfr]
      refine ⟨rfl, h64, ?_, rfl, ?_, ?_⟩
      · simp [h63]
      · simp [h63]
      · simp [h63, hH]
    · rw [appendByte_of_lt (by omega)] at h
      cases h
      refine ⟨rfl, h64, ?_, rfl, ?_, ?_⟩
      · simp only [bufLen_succ_toNat h64]; omega
      · simp [h63]
      · simp [h63]
  · rw [appendByte, storeByte_of_ge h64] at h
    cases h

/-- What a run of APPENDs does when it answers next. -/
structure AppendsEffect (bs : List Byte) (s t : State) : Prop where
  frame : OnlyBlockState s t
  bufLen : bs ≠ [] ∨ s.bufLen.toNat < 64 → t.bufLen.toNat = (s.bufLen.toNat + bs.length) % 64
  seq : s.seq = .idle → t.seq = .idle
  H : s.H.isSome → t.H.isSome
  written : (∀ i : Fin 64, i.val < s.bufLen.toNat → s.buf[i].isSome) →
    ∀ i : Fin 64, i.val < t.bufLen.toNat → t.buf[i].isSome

theorem AppendEffect.appends {b : Byte} {s t : State} (h : AppendEffect b s t) : AppendsEffect [b] s t where
  frame := h.frame
  bufLen _ := h.bufLen
  seq hs := by rw [h.seq, hs]; simp
  H hs := by rw [h.H, hs]; rfl
  written hw i hi := by
    have hlt := h.inRange
    rw [h.bufLen] at hi
    have hle : i.val < s.bufLen.toNat + 1 := by omega
    rw [h.buf]
    by_cases he : s.bufLen.toNat = i.val
    · simp [he]
    · have : (s.buf.set s.bufLen.toNat (some b) hlt)[i] = s.buf[i] := Vector.getElem_set_ne _ _ he
      rw [this]
      exact hw i (by omega)

theorem forEach_appendByte_effect {bs : List Byte} {s t : State} (h : forEach appendByte bs s = .next t) :
    AppendsEffect bs s t := by
  induction bs generalizing s with
  | nil =>
    cases h
    exact ⟨rfl, fun h => by rcases h with h | h <;> simp at h ⊢; omega, id, id, id⟩
  | cons b bs ih =>
    obtain ⟨u, hu, h⟩ := andThen_eq_next.1 h
    have e := (appendByte_effect hu).appends
    have hlt := (appendByte_effect hu).inRange
    have es := ih h
    have hb := e.bufLen (.inr hlt)
    refine ⟨e.frame.trans es.frame, fun _ => ?_, es.seq ∘ e.seq, es.H ∘ e.H, es.written ∘ e.written⟩
    rw [es.bufLen (.inr (by rw [hb]; simp; omega)), hb]
    simp only [List.length_cons, List.length_nil]
    omega

/-! ## The padding loop -/

/-- The zeros FINALIZE appends from a state: 56 - BUF_LEN, mod 64 (R130). -/
def zerosFrom (s : State) : Nat := (120 - s.bufLen.toNat) % 64

/-- The padding loop, bounded by at least the zeros it needs, is a run of APPENDs (R130). -/
theorem appendZeros_eq_forEach (n : Nat) {s : State} (hs : s.bufLen.toNat < 64) (hn : zerosFrom s ≤ n) :
    appendZeros n s = forEach appendByte (List.replicate (zerosFrom s) 0x00#8) s := by
  induction n generalizing s with
  | zero =>
    have : zerosFrom s = 0 := by omega
    rw [this]; rfl
  | succ n ih =>
    have h56 : s.bufLen = 56#7 ↔ zerosFrom s = 0 := by
      rw [← BitVec.toNat_inj, zerosFrom]; simp; omega
    by_cases h : s.bufLen = 56#7
    · rw [appendZeros, if_pos h, h56.1 h]; rfl
    · have hz : zerosFrom s ≠ 0 := fun h' => h (h56.2 h')
      rw [appendZeros, if_neg h, ← Nat.succ_pred_eq_of_ne_zero hz, List.replicate_succ, forEach_cons]
      refine andThen_congr fun t ht => ?_
      have e := appendByte_effect ht
      have hzt : zerosFrom t = (zerosFrom s).pred := by
        rw [zerosFrom, e.bufLen]; rw [zerosFrom] at hz ⊢; simp only [Nat.pred_eq_sub_one]; omega
      rw [← hzt]
      exact ih (by rw [e.bufLen]; omega) (by rw [hzt, Nat.pred_eq_sub_one]; omega)

/-- The bytes FINALIZE appends from BUF_LEN `n` with length field `lb`: separator, zeros, length (R130). -/
def finalBytes (n : Nat) (lb : BitVec 64) : List Byte :=
  0x80#8 :: (List.replicate (padByteCount n) 0x00#8 ++ bytesBE64 lb)

/-- FINALIZE's padding is one run of APPENDs. -/
theorem appendPadding_eq_forEach (lb : BitVec 64) {s : State} (hs : s.bufLen.toNat < 64) :
    appendPadding lb s = forEach appendByte (finalBytes s.bufLen.toNat lb) s := by
  rw [appendPadding, finalBytes, forEach_cons]
  refine andThen_congr fun t ht => ?_
  have e := appendByte_effect ht
  have hz : zerosFrom t = padByteCount s.bufLen.toNat := by
    rw [zerosFrom, e.bufLen, padByteCount]; omega
  rw [forEach_append, appendZeros_eq_forEach 63 (by rw [e.bufLen]; omega) (by rw [zerosFrom]; omega), hz]

theorem bytesBE64_length (v : BitVec 64) : (bytesBE64 v).length = 8 := by simp [bytesBE64]

/-- FINALIZE's bytes end a block: BUF_LEN plus their number is a multiple of 64 (R125). -/
theorem finalBytes_fills (n : Nat) (lb : BitVec 64) : (n + (finalBytes n lb).length) % 64 = 0 := by
  simp only [finalBytes, List.length_cons, List.length_append, List.length_replicate, bytesBE64_length, padByteCount]
  omega

/-! ## Blocks of a byte stream -/

theorem blockAt_append_of_lt {Q R : List Byte} {n : Nat} (h : n < Q.length / 64) :
    blockAt (Q ++ R) n = blockAt Q n := by
  refine Vector.ext fun i hi => ?_
  have hlt : 64 * n + i < Q.length := by omega
  simp only [blockAt, Vector.getElem_ofFn]
  rw [List.getD_eq_getElem?_getD, List.getD_eq_getElem?_getD, List.getElem?_append_left hlt]

theorem chunk_append_singleton_of_lt {Q : List Byte} (b : Byte) (h : Q.length % 64 < 63) :
    chunk (Q ++ [b]) = chunk Q := by
  have hl : (Q ++ [b]).length / 64 = Q.length / 64 := by rw [List.length_append, List.length_singleton]; omega
  rw [chunk, chunk, hl]
  refine List.map_congr_left fun n hn => blockAt_append_of_lt (List.mem_range.1 hn)

theorem chunk_append_singleton_of_full {Q : List Byte} (b : Byte) (h : Q.length % 64 = 63) :
    chunk (Q ++ [b]) = chunk Q ++ [blockAt (Q ++ [b]) (Q.length / 64)] := by
  have hl : (Q ++ [b]).length / 64 = Q.length / 64 + 1 := by rw [List.length_append, List.length_singleton]; omega
  have hold : (List.range (Q.length / 64)).map (blockAt (Q ++ [b])) = (List.range (Q.length / 64)).map (blockAt Q) :=
    List.map_congr_left fun n hn => blockAt_append_of_lt (List.mem_range.1 hn)
  rw [chunk, chunk, hl, List.range_succ, List.map_append, hold, List.map_singleton]

theorem chunk_of_short {Q : List Byte} (h : Q.length < 64) : chunk Q = [] := by
  rw [chunk, Nat.div_eq_of_lt h]; rfl

theorem chain_append (H : Vector Word 8) (Bs Cs : List (Vector Byte 64)) :
    chain H (Bs ++ Cs) = chain (chain H Bs) Cs := List.foldl_append

/-! ## The stream invariant -/

/-- The bytes `Q` have been appended since H was `H₀` and BUF empty: full blocks in H, the tail in BUF (R152, R153). -/
structure Streamed (H₀ : Vector Word 8) (Q : List Byte) (s : State) : Prop where
  bufLen : s.bufLen.toNat = Q.length % 64
  tail : ∀ i : Fin 64, i.val < Q.length % 64 → s.buf[i] = some (Q.getD (64 * (Q.length / 64) + i.val) 0#8)
  hash : s.H = some (chain H₀ (chunk Q))

/-- PROCESS_BLOCK on a written block with H written (R209, R210), SEQ aside. -/
theorem stages_of_written {s : State} {B : Vector Byte 64} {H : Vector Word 8} (hb : s.buf = B.map some)
    (hH : s.H = some H) :
    processBlock s =
      .next { s with W := (expand B).map some
                     work := some (rounds (expand B) (Working.ofHash H))
                     H := some (compress H (expand B))
                     seq := .idle } := by
  have hex : forEach expandStep (List.finRange 48) { s with W := loadedSchedule B s.W } =
      .next { s with W := (expand B).map some } :=
    forEach_expandStep_of_loaded (s := { s with W := loadedSchedule B s.W }) fun t => by
      have := t.isLt
      simp [loadedSchedule]
  rw [processBlock_eq_stages, loadSchedule_of_written hb, andThen_next, hex, andThen_next]
  simp only [initWorking, readHash, hH, readElement_some, andThen_next]
  have hr := forEach_roundStep_of_written
    (s := { s with W := (expand B).map some, work := some (Working.ofHash H) }) rfl rfl (List.finRange 64)
  simp only [hH] at hr
  rw [hr]
  rfl

theorem buf_of_full_stream {H₀ : Vector Word 8} {Q : List Byte} {s : State} (h : Streamed H₀ Q s) (b : Byte)
    (h63 : Q.length % 64 = 63) (hlt : s.bufLen.toNat < 64) :
    s.buf.set s.bufLen.toNat (some b) hlt = (blockAt (Q ++ [b]) (Q.length / 64)).map some := by
  refine Vector.ext fun i hi => ?_
  simp only [Vector.getElem_map, blockAt, Vector.getElem_ofFn]
  by_cases he : s.bufLen.toNat = i
  · have hq : 64 * (Q.length / 64) + i = Q.length := by rw [← he, h.bufLen]; omega
    subst he
    rw [Vector.getElem_set_self, hq]
    simp [List.getD_eq_getElem?_getD]
  · rw [Vector.getElem_set_ne _ _ he]
    have hi63 : i < 63 := by have := h.bufLen; omega
    have := h.tail ⟨i, hi⟩ (by simp; omega)
    have hlt : 64 * (Q.length / 64) + i < Q.length := by omega
    rw [List.getD_eq_getElem?_getD, List.getElem?_append_left hlt]
    simpa [List.getD_eq_getElem?_getD] using this

/-- One APPEND on a stream that fills a block: the exact next state. -/
theorem Streamed.appendByte_full {H₀ : Vector Word 8} {Q : List Byte} {s : State} (h : Streamed H₀ Q s) (b : Byte)
    (h63 : Q.length % 64 = 63) :
    appendByte b s =
      .next { s with
        buf := (blockAt (Q ++ [b]) (Q.length / 64)).map some
        bufLen := 0#7
        W := (expand (blockAt (Q ++ [b]) (Q.length / 64))).map some
        work := some (rounds (expand (blockAt (Q ++ [b]) (Q.length / 64))) (Working.ofHash (chain H₀ (chunk Q))))
        H := some (chain H₀ (chunk (Q ++ [b])))
        seq := .idle } := by
  have hb : s.bufLen.toNat = 63 := h.bufLen.trans h63
  rw [appendByte_of_full hb, buf_of_full_stream h b h63, chunk_append_singleton_of_full b h63, chain_append]
  rw [stages_of_written (s := { s with
    buf := (blockAt (Q ++ [b]) (Q.length / 64)).map some, bufLen := s.bufLen + 1#7 }) rfl h.hash]
  rfl

/-- One APPEND on a stream goes on and extends the stream by the byte. -/
theorem Streamed.appendByte {H₀ : Vector Word 8} {Q : List Byte} {s : State} (h : Streamed H₀ Q s) (b : Byte) :
    ∃ t, appendByte b s = .next t ∧ Streamed H₀ (Q ++ [b]) t := by
  have hmod := Nat.mod_lt Q.length (by omega : 64 > 0)
  by_cases h63 : Q.length % 64 = 63
  · refine ⟨_, h.appendByte_full b h63, ?_, ?_, rfl⟩
    · simp only [List.length_append, List.length_singleton, BitVec.toNat_ofNat]; omega
    · intro i hi
      simp only [List.length_append, List.length_singleton] at hi; omega
  · have hlt : s.bufLen.toNat < 63 := by rw [h.bufLen]; omega
    refine ⟨_, appendByte_of_lt hlt, ?_, ?_, ?_⟩
    · simp only [bufLen_succ_toNat (by omega : s.bufLen.toNat < 64), h.bufLen, List.length_append,
        List.length_singleton]
      omega
    · intro i hi
      simp only [List.length_append, List.length_singleton] at hi ⊢
      have hdiv : (Q.length + 1) / 64 = Q.length / 64 := by omega
      rw [hdiv, List.getD_eq_getElem?_getD]
      by_cases he : s.bufLen.toNat = i.val
      · have hq : 64 * (Q.length / 64) + i.val = Q.length := by rw [← he, h.bufLen]; omega
        rw [hq]
        simp [he]
      · have hne : (s.buf.set s.bufLen.toNat (some b) (by omega))[i] = s.buf[i] := Vector.getElem_set_ne _ _ he
        have hi' : i.val < Q.length % 64 := by have := h.bufLen; omega
        have hlt : 64 * (Q.length / 64) + i.val < Q.length := by omega
        rw [hne, h.tail i hi', List.getElem?_append_left hlt, List.getD_eq_getElem?_getD]
    · rw [chunk_append_singleton_of_lt b (by omega)]
      exact h.hash

/-- A run of APPENDs on a stream goes on and extends the stream. -/
theorem Streamed.forEach_appendByte {H₀ : Vector Word 8} {Q : List Byte} {s : State} (h : Streamed H₀ Q s)
    (bs : List Byte) : ∃ t, forEach Machine.appendByte bs s = .next t ∧ Streamed H₀ (Q ++ bs) t := by
  induction bs generalizing Q s with
  | nil => exact ⟨s, rfl, by simpa using h⟩
  | cons b bs ih =>
    obtain ⟨u, hu, hsu⟩ := h.appendByte b
    obtain ⟨t, ht, hst⟩ := ih hsu
    refine ⟨t, ?_, by simpa using hst⟩
    rw [forEach_cons, hu, andThen_next, ht]

end Sys2Proof.Machine
end

