-- ==== Sys2Proof/Laws/Commands.lean ====
section
/-! SUPPORT. Everything a command can do when it answers next, said once for all seven (45_control.md R253), and the bodies of
ABSORB_BYTE and FINALIZE once their checks have passed. -/

namespace Sys2Proof.Machine

/-- ABSORB_BYTE past its three checks (R155). -/
theorem execAbsorbByte_of_accepted {s : State} {data : Byte} (he : s.err = false) (hp : s.phase = .absorb)
    (hm : s.msgLen.toNat ≠ maxMsgBytes) :
    execAbsorbByte data s =
      andThen (appendByte data { s with msgLen := s.msgLen + 1#61 }) fun t => .next (t.respond 0#32) := by
  rw [execAbsorbByte, unlessErr_of_noErr he, inPhase_of_eq hp, if_neg hm]

/-- FINALIZE past its two checks, as one run of APPENDs (R130). -/
theorem execFinalize_of_accepted {s : State} (he : s.err = false) (hp : s.phase = .absorb) (hb : s.bufLen.toNat < 64) :
    execFinalize s =
      andThen (forEach appendByte (finalBytes s.bufLen.toNat (lengthBits s.msgLen)) s)
        fun t => .next ({ t with phase := .done }.respond 0#32) := by
  rw [execFinalize, unlessErr_of_noErr he, inPhase_of_eq hp, appendPadding_eq_forEach _ hb]

/-- FINALIZE's padding goes on only from a BUF_LEN in range, and is one run of APPENDs. -/
theorem appendPadding_effect {lb : BitVec 64} {s t : State} (h : appendPadding lb s = .next t) :
    s.bufLen.toNat < 64 ∧ AppendsEffect (finalBytes s.bufLen.toNat lb) s t := by
  have hlt : s.bufLen.toNat < 64 := by
    rw [appendPadding] at h
    obtain ⟨u, hu, _⟩ := andThen_eq_next.1 h
    exact (appendByte_effect hu).inRange
  rw [appendPadding_eq_forEach _ hlt] at h
  exact ⟨hlt, forEach_appendByte_effect h⟩

/-- The command is one of the four that change no element of the core when obeyed. -/
def Instr.readsOnly (i : Instr) : Prop :=
  i = .nop ∨ i = .readStatus ∨ (∃ idx, i = .readDigestByte idx) ∨ ∃ widx, i = .readDigestWord widx

/-- Everything a command can do when it answers next: answer and change nothing; take the fault path; or be one of INIT,
ABSORB_BYTE and FINALIZE, obeyed. -/
inductive CommandEffect (i : Instr) (s t : State) : Prop
  | answer (v : Word) (why : s.err = true ∨ Instr.readsOnly i)
      (value : v = 0#32 ∨ i = .readStatus ∨ (s.err = false ∧ s.phase = .done)) (eq : t = s.respond v)
  | wrongPhase (noErr : s.err = false)
      (why : ((i = .finalize ∨ ∃ data, i = .absorbByte data) ∧ s.phase ≠ .absorb) ∨
        (((∃ idx, i = .readDigestByte idx) ∨ ∃ widx, i = .readDigestWord widx) ∧ s.phase ≠ .done))
      (eq : t = { s with err := true, cause := .wrongPhase }.respond 0#32)
  | overflow (noErr : s.err = false) (inAbsorb : s.phase = .absorb) (full : s.msgLen.toNat = maxMsgBytes)
      (which : ∃ data, i = .absorbByte data) (eq : t = { s with err := true, cause := .lengthOverflow }.respond 0#32)
  | init (noErr : s.err = false) (which : i = .init)
      (eq : t = { s with H := some Rom.H0, msgLen := 0#61, bufLen := 0#7, phase := .absorb }.respond 0#32)
  | absorb (data : Byte) (u : State) (noErr : s.err = false) (inAbsorb : s.phase = .absorb)
      (room : s.msgLen.toNat ≠ maxMsgBytes) (which : i = .absorbByte data)
      (appended : AppendEffect data { s with msgLen := s.msgLen + 1#61 } u) (eq : t = u.respond 0#32)
  | finalize (u : State) (noErr : s.err = false) (inAbsorb : s.phase = .absorb) (which : i = .finalize)
      (inRange : s.bufLen.toNat < 64)
      (appended : AppendsEffect (finalBytes s.bufLen.toNat (lengthBits s.msgLen)) s u)
      (eq : t = { u with phase := .done }.respond 0#32)

theorem execInit_effect {s t : State} (h : execInit s = .next t) : CommandEffect .init s t := by
  rw [execInit, unlessErr_eq_next] at h
  obtain ⟨he, rfl⟩ | ⟨he, h⟩ := h
  · exact .answer 0#32 (.inl he) (.inl rfl) rfl
  · cases h; exact .init he rfl rfl

theorem execAbsorbByte_effect {data : Byte} {s t : State} (h : execAbsorbByte data s = .next t) :
    CommandEffect (.absorbByte data) s t := by
  rw [execAbsorbByte, unlessErr_eq_next] at h
  obtain ⟨he, rfl⟩ | ⟨he, h⟩ := h
  · exact .answer 0#32 (.inl he) (.inl rfl) rfl
  · obtain ⟨hp, h⟩ | ⟨hp, h⟩ := inPhase_eq_next.1 h
    · split at h
      · next hm => cases h; exact .overflow he hp hm ⟨_, rfl⟩ rfl
      · next hm =>
        obtain ⟨u, hu, h⟩ := andThen_eq_next.1 h
        cases h; exact .absorb data u he hp hm rfl (appendByte_effect hu) rfl
    · cases h; exact .wrongPhase he (.inl ⟨.inr ⟨_, rfl⟩, hp⟩) rfl

theorem execFinalize_effect {s t : State} (h : execFinalize s = .next t) : CommandEffect .finalize s t := by
  rw [execFinalize, unlessErr_eq_next] at h
  obtain ⟨he, rfl⟩ | ⟨he, h⟩ := h
  · exact .answer 0#32 (.inl he) (.inl rfl) rfl
  · obtain ⟨hp, h⟩ | ⟨hp, h⟩ := inPhase_eq_next.1 h
    · obtain ⟨u, hu, h⟩ := andThen_eq_next.1 h
      obtain ⟨hb, e⟩ := appendPadding_effect hu
      cases h; exact .finalize u he hp rfl hb e rfl
    · cases h; exact .wrongPhase he (.inl ⟨.inl rfl, hp⟩) rfl

theorem execReadDigestByte_effect {idx : BitVec 5} {s t : State} (h : execReadDigestByte idx s = .next t) :
    CommandEffect (.readDigestByte idx) s t := by
  rw [execReadDigestByte, unlessErr_eq_next] at h
  obtain ⟨he, rfl⟩ | ⟨he, h⟩ := h
  · exact .answer 0#32 (.inl he) (.inl rfl) rfl
  · obtain ⟨hp, h⟩ | ⟨hp, h⟩ := inPhase_eq_next.1 h
    · obtain ⟨H, -, h⟩ := readElement_eq_next.1 h
      cases h; exact .answer _ (.inr (.inr (.inr (.inl ⟨_, rfl⟩)))) (.inr (.inr ⟨he, hp⟩)) rfl
    · cases h; exact .wrongPhase he (.inr ⟨.inl ⟨_, rfl⟩, hp⟩) rfl

theorem execReadDigestWord_effect {widx : BitVec 3} {s t : State} (h : execReadDigestWord widx s = .next t) :
    CommandEffect (.readDigestWord widx) s t := by
  rw [execReadDigestWord, unlessErr_eq_next] at h
  obtain ⟨he, rfl⟩ | ⟨he, h⟩ := h
  · exact .answer 0#32 (.inl he) (.inl rfl) rfl
  · obtain ⟨hp, h⟩ | ⟨hp, h⟩ := inPhase_eq_next.1 h
    · obtain ⟨H, -, h⟩ := readElement_eq_next.1 h
      cases h; exact .answer _ (.inr (.inr (.inr (.inr ⟨_, rfl⟩)))) (.inr (.inr ⟨he, hp⟩)) rfl
    · cases h; exact .wrongPhase he (.inr ⟨.inr ⟨_, rfl⟩, hp⟩) rfl

/-- Every command, by its own lemma. -/
theorem exec_effect {i : Instr} {s t : State} (h : exec i s = .next t) : CommandEffect i s t := by
  cases i with
  | nop => cases h; exact .answer 0#32 (.inr (.inl rfl)) (.inl rfl) rfl
  | init => exact execInit_effect h
  | absorbByte data => exact execAbsorbByte_effect h
  | finalize => exact execFinalize_effect h
  | readDigestByte idx => exact execReadDigestByte_effect h
  | readDigestWord widx => exact execReadDigestWord_effect h
  | readStatus => cases h; exact .answer _ (.inr (.inr (.inl rfl))) (.inr (.inl rfl)) rfl

end Sys2Proof.Machine
end

