-- ==== Sys2Proof/Laws/Decode.lean ====
section
/-! SUPPORT. OP and the reserved bits of a word as arithmetic on its number (30_encoding.md R92), for proofs about the decoder. -/

namespace Sys2Proof

/-- OP = word[31:28] is the top of the number. -/
theorem opField_toNat (w : Word) : (opField w).toNat = w.toNat / 2 ^ 28 := by
  have := w.isLt
  simp only [opField, BitVec.extractLsb'_toNat, Nat.shiftRight_eq_div_pow]
  omega

/-- A mask of `n` ones from bit `k` up is 0 on a number exactly when those bits of it are 0. -/
theorem land_ones_shiftLeft_eq_zero (x n k : Nat) :
    x &&& ((2 ^ n - 1) <<< k) = 0 ↔ x / 2 ^ k % 2 ^ n = 0 := by
  rw [← Nat.and_two_pow_sub_one_eq_mod, ← Nat.shiftRight_eq_div_pow]
  constructor <;> intro h <;> refine Nat.eq_of_testBit_eq fun i => ?_
  · have := congrArg (Nat.testBit · (k + i)) h
    simp only [Nat.testBit_and, Nat.testBit_shiftLeft, Nat.testBit_shiftRight, Nat.zero_testBit,
      Nat.add_sub_cancel_left, Nat.le_add_right, decide_true, Bool.true_and] at this ⊢
    exact this
  · by_cases hi : k ≤ i
    · have := congrArg (Nat.testBit · (i - k)) h
      rw [Bool.eq_iff_iff]
      simp only [Nat.testBit_and, Nat.testBit_shiftRight, Nat.add_sub_cancel' hi, Nat.zero_testBit] at this
      simpa [Nat.testBit_and, Nat.testBit_shiftLeft, hi] using this
    · simp [Nat.testBit_and, Nat.testBit_shiftLeft, hi]

/-- A word whose masked bits, `n` ones from bit `k` up, are 0. -/
theorem and_mask_eq_zero_iff (w : Word) (m : Word) (n k : Nat) (hm : m.toNat = (2 ^ n - 1) <<< k) :
    w &&& m = 0#32 ↔ w.toNat / 2 ^ k % 2 ^ n = 0 := by
  rw [← BitVec.toNat_inj, BitVec.toNat_and, hm]
  exact land_ones_shiftLeft_eq_zero _ _ _

/-- The operand bits a defined OP leaves free, at the bottom of the word (R92). -/
def operandBits (op : Nat) : Nat :=
  match op with
  | 2 => 8
  | 4 => 5
  | 5 => 3
  | _ => 0

/-- The reserved bits of a word are 0 exactly when its low 28 bits fit the operand (R92). -/
theorem reservedClear_iff (w : Word) :
    reservedClear w = true ↔ w.toNat % 2 ^ 28 < 2 ^ operandBits (w.toNat / 2 ^ 28) := by
  have hlt := w.isLt
  simp only [reservedClear, decide_eq_true_eq, reservedMask, opField_toNat]
  split
  · next h => rw [and_mask_eq_zero_iff w _ 20 8 (by decide), h]; simp only [operandBits]; omega
  · next h => rw [and_mask_eq_zero_iff w _ 23 5 (by decide), h]; simp only [operandBits]; omega
  · next h => rw [and_mask_eq_zero_iff w _ 25 3 (by decide), h]; simp only [operandBits]; omega
  · next h₂ h₄ h₅ =>
    have h0 : operandBits (w.toNat / 2 ^ 28) = 0 := by
      unfold operandBits
      split <;> simp_all
    rw [and_mask_eq_zero_iff w _ 28 0 (by decide), h0]
    omega

end Sys2Proof
end

