-- ==== Sys2Proof/Laws/PerInstr.lean ====
section
/-! SUPPORT. The family OpcodeRow: every command's word lies in the command's own row of the opcode map, and uses no bit its
format reserves (30_encoding.md R92, R94). One lemma for each constructor of Instr. -/

namespace Sys2Proof.Laws.OpcodeRow

/-- The command is well formed, and its word matches its row and passes both checks of the decoder. -/
def Statement (i : Instr) : Prop :=
  i.wellFormed = true ∧ encode i &&& (opcodeRow i).mask = (opcodeRow i).pattern ∧ wordWellFormed (encode i) = true

theorem nop : Statement .nop := by unfold Statement; decide
theorem init : Statement .init := by unfold Statement; decide
theorem absorbByte (data : Byte) : Statement (.absorbByte data) := by
  unfold Statement; revert data; decide +kernel
theorem finalize : Statement .finalize := by unfold Statement; decide
theorem readDigestByte (idx : BitVec 5) : Statement (.readDigestByte idx) := by
  unfold Statement; revert idx; decide +kernel
theorem readDigestWord (widx : BitVec 3) : Statement (.readDigestWord widx) := by
  unfold Statement; revert widx; decide +kernel
theorem readStatus : Statement .readStatus := by unfold Statement; decide

end Sys2Proof.Laws.OpcodeRow
end

