-- ==== Sys2Proof/Laws/Step.lean ====
section
/-! SUPPORT. The step by what the host presents (20_memory.md R66), and runs one step at a time. -/

namespace Sys2Proof.Machine

/-- Nothing presented: the state stays. -/
theorem step_of_nothing {s : State} (h : s.pending = []) : step s = .next s := by
  simp only [step, nextInput, h]

/-- A command word presented: it is taken and run. -/
theorem step_of_command {s : State} {w : Word} {rest : List HostInput} (h : s.pending = .command w :: rest) :
    step s = runCommand w { s with pending := rest } := by
  simp only [step, nextInput, h, acceptInput]

/-- A hardware reset presented: it is taken. -/
theorem step_of_reset {s : State} {rest : List HostInput} (h : s.pending = .reset :: rest) :
    step s = .next (hardwareReset { s with pending := rest }) := by
  simp only [step, nextInput, h, acceptInput]

/-- A run whose first step goes on is the run from where it goes. Cite it with `M := Sys2Proof.core`. -/
theorem run_of_step {M : Host.Core} {n : Nat} {s t : M.State} (h : M.step s = .next t) : M.run (n + 1) s = M.run n t := by
  rw [Host.Core.run, h]

/-- A run whose first step stops does not go on. -/
theorem run_of_stop {M : Host.Core} {n : Nat} {s t : M.State} (h : ∀ u, M.step s ≠ .next u) :
    M.run (n + 1) s ≠ .next t := by
  rw [Host.Core.run]
  cases hs : M.step s with
  | next u => exact absurd hs (h u)
  | _ => simp

end Sys2Proof.Machine
end

