-- ==== Sys2Proof/Tests/Slice0.lean ====
section
/-! SUPPORT. Tests on fixed values, each taken from the spec and not from this model: 95_test_vectors.md, the worked examples of
the rules, the definitions of the ROM tables. Then a witness for every obligation that has hypotheses. -/

open Sys2Proof Sys2Proof.Machine

namespace Sys2Proof.Tests

/-! ## States for the tests -/

/-- In ABSORB after `count` bytes, the last `held` of them, all 0x61, in BUF, with H still H0. -/
def absorbing (count held : Nat) : State :=
  { State.reset with
    phase := .absorb
    msgLen := BitVec.ofNat 61 count
    bufLen := BitVec.ofNat 7 held
    buf := Vector.ofFn fun i => if i.val < held then some 0x61#8 else none
    H := some Rom.H0 }

/-- In ABSORB after the bytes "abc". -/
def absorbedAbc : State :=
  { absorbing 3 3 with buf := ((Vector.replicate 64 none).set 0 (some 0x61#8)).set 1 (some 0x62#8) |>.set 2 (some 0x63#8) }

/-- The hash state of "abc" (95_test_vectors.md section 2.4). -/
def abcHash : Vector Word 8 := #v[
  0xba7816bf#32, 0x8f01cfea#32, 0x414140de#32, 0x5dae2223#32, 0xb00361a3#32, 0x96177a9c#32, 0xb410ff61#32, 0xf20015ad#32]

/-- In DONE with the digest of "abc". -/
def ended : State := { State.reset with phase := .done, msgLen := 3#61, H := some abcHash }

/-- The state with ERR = 1. -/
def faulted (s : State) : State := { s with err := true, cause := .wrongPhase }

/-- The state with one input presented. -/
def given (x : HostInput) (s : State) : State := { s with pending := [x] }

/-- Every entry of the test block is 0x61. -/
def block : Vector Byte 64 := Vector.replicate 64 0x61#8

/-- What a test looks at in an outcome; `none` if it is not a next state. -/
def seen {α : Type} (f : State → α) : Result → Option α
  | .next t => some (f t)
  | .fault _ => none
  | .refused _ => none

/-- The status word and the last response after an outcome. -/
def status (r : Result) : Option (Word × List Word) := seen (fun t => (statusWord t, t.responses.take 1)) r

/-! ## Well-formedness: an ill-formed word for each check -/

theorem test_opDefined_refuses : opDefined 0x70000000#32 = false ∧ opDefined 0xf0000000#32 = false ∧
    wordWellFormed 0x70000000#32 = false := by decide

theorem test_reservedClear_refuses : reservedClear 0x00000001#32 = false ∧ reservedClear 0x20000100#32 = false ∧
    reservedClear 0x40000020#32 = false ∧ reservedClear 0x50000008#32 = false ∧ wordWellFormed 0x20000100#32 = false := by
  decide

theorem test_wordWellFormed_accepts : wordWellFormed 0x200000ff#32 = true ∧ wordWellFormed 0x4000001f#32 = true ∧
    wordWellFormed 0x50000007#32 = true ∧ wordWellFormed 0x60000000#32 = true := by decide

/-! ## Decoding: words written out from the formats of R92 and the map of R94 -/

theorem test_decode_nop : decode 0b00000000000000000000000000000000#32 = .cmd .nop := by decide
theorem test_decode_init : decode 0b00010000000000000000000000000000#32 = .cmd .init := by decide
theorem test_decode_absorbByte : decode 0b00100000000000000000000010000001#32 = .cmd (.absorbByte 0x81#8) := by decide
theorem test_decode_finalize : decode 0b00110000000000000000000000000000#32 = .cmd .finalize := by decide
theorem test_decode_readDigestByte : decode 0b01000000000000000000000000010011#32 = .cmd (.readDigestByte 19#5) := by decide
theorem test_decode_readDigestWord : decode 0b01010000000000000000000000000110#32 = .cmd (.readDigestWord 6#3) := by decide
theorem test_decode_readStatus : decode 0b01100000000000000000000000000000#32 = .cmd .readStatus := by decide
theorem test_decode_illegal : decode 0x70000000#32 = .illegal .illegalOpcode ∧ decode 0x08000001#32 = .illegal .reservedField ∧
    decode 0x1fffffff#32 = .illegal .reservedField ∧ decode 0xffffffff#32 = .illegal .illegalOpcode := by decide
theorem test_encode : encode (.absorbByte 0xff#8) = 0x200000ff#32 ∧ encode (.readDigestByte 31#5) = 0x4000001f#32 ∧
    encode (.readDigestWord 7#3) = 0x50000007#32 := by decide
theorem test_decodeTableWord : decodeTableWord 32 0x20000061 = some (.absorbByte 0x61#8) ∧
    decodeTableWord 32 0x20000100 = none := by decide

/-! ## The ROM tables, from their definitions (R41, R42) -/

/-- The first 64 primes. -/
def primes : List Nat := [
  2, 3, 5, 7, 11, 13, 17, 19, 23, 29, 31, 37, 41, 43, 47, 53, 59, 61, 67, 71, 73, 79, 83, 89, 97, 101, 103, 107, 109, 113, 127,
  131, 137, 139, 149, 151, 157, 163, 167, 173, 179, 181, 191, 193, 197, 199, 211, 223, 227, 229, 233, 239, 241, 251, 257, 263,
  269, 271, 277, 281, 283, 293, 307, 311]

/-- K[t] is floor(cbrt(p x 2^96)) mod 2^32: with some whole part below 7, the cube brackets p x 2^96. -/
theorem test_romK : ∀ t : Fin 64, ∃ whole : Fin 7,
    (whole.val * 2 ^ 32 + Rom.K[t].toNat) ^ 3 ≤ primes[t]! * 2 ^ 96 ∧
    primes[t]! * 2 ^ 96 < (whole.val * 2 ^ 32 + Rom.K[t].toNat + 1) ^ 3 := by decide +kernel

/-- H0[k] is floor(sqrt(p x 2^64)) mod 2^32. -/
theorem test_romH0 : ∀ k : Fin 8, ∃ whole : Fin 5,
    (whole.val * 2 ^ 32 + Rom.H0[k].toNat) ^ 2 ≤ primes[k]! * 2 ^ 64 ∧
    primes[k]! * 2 ^ 64 < (whole.val * 2 ^ 32 + Rom.H0[k].toNat + 1) ^ 2 := by decide +kernel

/-! ## Primitives and functions (95_test_vectors.md sections 2.3 and 2.4) -/

theorem test_rotr_shr : rotr 0x12345678#32 2 = 0x048d159e#32 ∧ rotr 0x12345678#32 25 = 0x1a2b3c09#32 ∧
    shr 0x12345678#32 3 = 0x02468acf#32 ∧ shr 0x12345678#32 10 = 0x00048d15#32 := by decide
theorem test_add32 : add32 [0xffffffff#32, 1#32] = 0#32 ∧
    add32 [0xffffffff#32, 0x1fffffff#32, 0xffffffff#32, 0x003fffff#32] = 0x203ffffc#32 := by decide
theorem test_schedule_functions : sigma0 0x12345678#32 = 0xe7fce6ee#32 ∧ sigma1 0x12345678#32 = 0xa1f78649#32 := by decide
theorem test_round_functions : bigSigma0 0x12345678#32 = 0x66146474#32 ∧ bigSigma1 0x12345678#32 = 0x3561abda#32 ∧
    ch 0xff00ff00#32 0x12345678#32 0x9abcdef0#32 = 0x12bc56f0#32 ∧
    maj 0xff00ff00#32 0x12345678#32 0x9abcdef0#32 = 0x9a34de70#32 := by decide

/-- Round 0 of the "abc" block. -/
theorem test_round : roundF (Working.ofHash Rom.H0) Rom.K[0] 0x61626380#32 =
    ⟨0x5d6aebcd#32, 0x6a09e667#32, 0xbb67ae85#32, 0x3c6ef372#32, 0xfa2a4622#32, 0x510e527f#32, 0x9b05688c#32,
      0x1f83d9ab#32⟩ := by decide

/-- An all-zero schedule from H0. -/
theorem test_compress_zero : compress Rom.H0 (Vector.replicate 64 0#32) =
    #v[0xda5698be#32, 0x17b9b469#32, 0x62335799#32, 0x779fbeca#32, 0x8ce5d491#32, 0xc0d26243#32, 0xbafef9ea#32,
      0x1837a9d8#32] := by decide +kernel

/-- The all-0xff block: W[16] to W[23]. -/
theorem test_expand : (List.range' 16 8).map ((expand (Vector.replicate 64 0xff#8)).toList.getD · 0#32) =
    [0x203ffffc#32, 0x203ffffc#32, 0x20099be4#32, 0x20099be4#32, 0x1e869660#32, 0x1e869660#32, 0xb9fbad33#32,
      0xda3bad30#32] := by decide +kernel

/-- The padding shapes of section 2.1. -/
theorem test_padding : [0, 1, 3, 55, 56, 57, 63, 64, 65, 119, 120, 128, 2 ^ 61 - 1].map padByteCount =
    [55, 54, 52, 0, 63, 62, 56, 55, 54, 0, 63, 55, 56] := by decide

/-- The last bytes of the padding of "abc", and the length field of the longest message. -/
theorem test_length_field : (paddingBytes 3).drop 53 = [0#8, 0#8, 0#8, 0#8, 0#8, 0#8, 0#8, 0x18#8] ∧
    bytesBE64 (lengthBits (BitVec.ofNat 61 (2 ^ 61 - 1))) =
      [0xff#8, 0xff#8, 0xff#8, 0xff#8, 0xff#8, 0xff#8, 0xff#8, 0xf8#8] := by decide +kernel

/-- The reference digest of the empty message, as the source gives it, in hexadecimal. -/
theorem test_sha256_empty : (sha256 []).map hex =
    some "e3b0c44298fc1c149afbf4c8996fb92427ae41e4649b934ca495991b7852b855".toList := by decide +kernel

/-! ## The commands -/

theorem test_nop : status (exec .nop State.reset) = some (0#32, [0#32]) := by decide
theorem test_init : status (exec .init ended) = some (0x00000001#32, [0#32]) ∧
    seen State.H (exec .init ended) = some (some Rom.H0) := by decide
theorem test_absorb : status (exec (.absorbByte 0x61#8) (absorbing 0 0)) = some (0x00000011#32, [0#32]) ∧
    status (exec (.absorbByte 0x00#8) (absorbing (2 ^ 61 - 2) 62)) = some (0x000003f1#32, [0#32]) ∧
    status (exec (.absorbByte 0x00#8) (absorbing (2 ^ 61 - 1) 63)) = some (0x000043f5#32, [0#32]) := by decide +kernel
/-- The 64th byte processes the block of 64 x "a". -/
theorem test_absorb_block : status (exec (.absorbByte 0x61#8) (absorbing 63 63)) = some (0x00000001#32, [0#32]) ∧
    seen State.H (exec (.absorbByte 0x61#8) (absorbing 63 63)) =
      some (some #v[0xdf5bb81c#32, 0xe81e0626#32, 0xfb45a894#32, 0x4fd40f31#32, 0xb25e6816#32, 0xd6d499c1#32, 0xab904929#32,
        0x00635e66#32]) := by decide +kernel
theorem test_finalize : status (exec .finalize absorbedAbc) = some (0x00000002#32, [0#32]) ∧
    seen State.H (exec .finalize absorbedAbc) = some (some abcHash) := by decide +kernel
/-- 56 x "a": FINALIZE processes two blocks. -/
theorem test_finalize_two_blocks : seen (fun t => t.H.map fun h => hex (serialize h)) (exec .finalize (absorbing 56 56)) =
    some (some "b35439a4ac6f0948b6d6f9e3c6af0f5f590ce20f1bde7090ef7970686ec6738a".toList) := by decide +kernel
theorem test_readDigestByte : seen (fun t => t.responses) (exec (.readDigestByte 0#5) ended) = some [0x000000ba#32] ∧
    seen (fun t => t.responses) (exec (.readDigestByte 31#5) ended) = some [0x000000ad#32] := by decide
theorem test_readDigestWord : seen (fun t => t.responses) (exec (.readDigestWord 0#3) ended) = some [0xba7816bf#32] ∧
    seen (fun t => t.responses) (exec (.readDigestWord 7#3) ended) = some [0xf20015ad#32] := by decide
theorem test_readStatus : seen (fun t => t.responses) (exec .readStatus absorbedAbc) = some [0x00000031#32] := by decide

/-! ## The step: faults, their priority and their stickiness (section 2.6), reset (R400) -/

theorem test_faults : status (step (given (.command 0x7fffffff#32) (absorbing 0 0))) = some (0x00001005#32, [0#32]) ∧
    status (step (given (.command 0x20000100#32) ended)) = some (0x00002006#32, [0#32]) ∧
    status (step (given (.command 0x30000000#32) ended)) = some (0x00003006#32, [0#32]) ∧
    status (step (given (.command 0x40000000#32) (absorbing 2 2))) = some (0x00003025#32, [0#32]) ∧
    status (step (given (.command 0x20000061#32) State.reset)) = some (0x00003004#32, [0#32]) := by decide +kernel
theorem test_sticky : status (step (given (.command 0x10000000#32) (faulted State.reset))) = some (0x00003004#32, [0#32]) ∧
    status (step (given (.command 0x60000000#32) (faulted State.reset))) = some (0x00003004#32, [0x00003004#32]) ∧
    status (step (given (.command 0x60000001#32) (faulted State.reset))) = some (0x00003004#32, [0#32]) := by decide +kernel
theorem test_reset : seen (fun t => (statusWord t, t.H, t.responses)) (step (given .reset (faulted ended))) =
    some (0#32, none, []) := by decide +kernel
theorem test_fetch : status (step (State.reset.withFetchWord 32 0x60000000)) = some (0#32, [0#32]) := by decide

/-! ## The assembler (R98, R99) -/

theorem test_assemble : assemble ["hash.str \"abc\" ; one block".toList] = some [
    0x10000000#32, 0x20000061#32, 0x20000062#32, 0x20000063#32, 0x30000000#32, 0x50000000#32, 0x50000001#32, 0x50000002#32,
    0x50000003#32, 0x50000004#32, 0x50000005#32, 0x50000006#32, 0x50000007#32] := by decide +kernel
theorem test_assemble_operands : assembleLine "absorb 0xff".toList = some [0x200000ff#32] ∧
    assembleLine "absorb 256".toList = none ∧ assembleLine "rdbyte 31".toList = some [0x4000001f#32] ∧
    assembleLine "rdword 8".toList = none ∧ assembleLine "absorb.bytes 1, 0x2".toList = some [0x20000001#32, 0x20000002#32] ∧
    assembleLine "jump 0".toList = none := by decide +kernel

/-! ## Witnesses: concrete values that meet the hypotheses of each obligation, clause by clause, at the ends of their ranges -/

theorem witness_DecodeClassifiesEveryWord :
    (7 ≤ (0x70000000#32).toNat / 2 ^ 28) ∧ ((0x6fffffff#32).toNat / 2 ^ 28 < 7 ∧ reservedBitSet 0x6fffffff#32) ∧
    ((0x20000100#32).toNat / 2 ^ 28 < 7 ∧ reservedBitSet 0x20000100#32) ∧
    (¬ reservedBitSet 0x00000000#32 ∧ (0x00000000#32).toNat / 2 ^ 28 = 0) ∧
    (¬ reservedBitSet 0x10000000#32 ∧ (0x10000000#32).toNat / 2 ^ 28 = 1) ∧
    (¬ reservedBitSet 0x200000ff#32 ∧ (0x200000ff#32).toNat / 2 ^ 28 = 2) ∧
    (¬ reservedBitSet 0x30000000#32 ∧ (0x30000000#32).toNat / 2 ^ 28 = 3) ∧
    (¬ reservedBitSet 0x4000001f#32 ∧ (0x4000001f#32).toNat / 2 ^ 28 = 4) ∧
    (¬ reservedBitSet 0x50000007#32 ∧ (0x50000007#32).toNat / 2 ^ 28 = 5) ∧
    (¬ reservedBitSet 0x60000000#32 ∧ (0x60000000#32).toNat / 2 ^ 28 = 6) := by
  dsimp only [reservedBitSet]; and_intros <;> decide

theorem witness_StepRunsThePresentedInput :
    ((given (.command 0x200000ff#32) State.reset).pending = .command 0x200000ff#32 :: [] ∧
      decode 0x200000ff#32 = .cmd (.absorbByte 0xff#8)) ∧
    ((given (.command 0x70000000#32) State.reset).err = false ∧ decode 0x70000000#32 = .illegal .illegalOpcode) ∧
    ((given (.command 0x20000100#32) State.reset).err = false ∧ decode 0x20000100#32 = .illegal .reservedField) ∧
    ((given (.command 0x70000000#32) (faulted ended)).err = true ∧
      (given (.command 0x70000000#32) (faulted ended)).pending = .command 0x70000000#32 :: []) ∧
    (given .reset ended).pending = .reset :: [] ∧ State.reset.pending = [] ∧
    (32 ≤ 32 ∧ 0x60000000 < 2 ^ 32 ∧ decode (BitVec.ofNat 32 0x60000000) = .cmd .readStatus) := by decide

theorem witness_EveryCommandHasOneResponse :
    (given (.command 0x50000000#32) ended).pending = .command 0x50000000#32 :: [] ∧
    seen (fun t => t.responses) (step (given (.command 0x50000000#32) ended)) = some [0xba7816bf#32] ∧
    status (step (given (.command 0x7fffffff#32) ended)) = some (0x00001006#32, [0#32]) := by decide

theorem witness_NopDoesNothing :
    State.reset.err = false ∧ (0x00000001#32).toNat / 2 ^ 28 = 0 ∧ (0x00000001#32) ≠ 0#32 ∧
    (0x0fffffff#32).toNat / 2 ^ 28 = 0 ∧ (0x0fffffff#32) ≠ 0#32 ∧
    exec .nop State.reset = .next { State.reset with responses := [0#32] } := ⟨by decide, by decide, by decide, by decide,
      by decide, rfl⟩

theorem witness_InitStartsADigest :
    ended.err = false ∧ ended.cause = .none ∧ (faulted ended).err = true ∧ (0x1fffffff#32).toNat / 2 ^ 28 = 1 ∧
    (0x1fffffff#32) ≠ 0x10000000#32 ∧ (seen State.phase (exec .init ended)).isSome := by decide

theorem witness_absorbing_inv : (absorbing 63 63).Inv :=
  ⟨by decide, by decide, by decide, by decide, by decide, by decide, by decide, by decide⟩

theorem witness_ended_inv : ended.Inv :=
  ⟨by decide, by decide, by decide, by decide, by decide, by decide, by decide, by decide⟩

theorem witness_faulted_inv : (faulted ended).Inv :=
  ⟨by decide, by decide, by decide, by decide, by decide, by decide, by decide, by decide⟩

theorem witness_reset_inv : State.reset.Inv :=
  ⟨by decide, by decide, by decide, by decide, by decide, by decide, by decide, by decide⟩

theorem witness_ReadStatusReportsTheState :
    ended.Inv ∧ ended.phase = .done ∧ (absorbing 63 63).Inv ∧ (absorbing 63 63).phase = .absorb ∧
    State.reset.Inv ∧ State.reset.err = false ∧ State.reset.phase = .idle ∧
    (seen State.phase (exec (.absorbByte 0x61#8) State.reset)).isSome ∧
    (0x6fffffff#32).toNat / 2 ^ 28 = 6 ∧ (0x6fffffff#32) ≠ 0x60000000#32 :=
  ⟨witness_ended_inv, by decide, witness_absorbing_inv, by decide, witness_reset_inv, by decide⟩

theorem witness_ReadDigestByteAnswersTheByte :
    ended.err = false ∧ ended.phase = .done ∧ ended.H = some abcHash ∧ (absorbing 0 0).err = false ∧
    (absorbing 0 0).phase ≠ .done ∧ (faulted ended).err = true ∧ (0x40000020#32).toNat / 2 ^ 28 = 4 ∧
    2 ^ 5 ≤ (0x40000020#32).toNat % 2 ^ 28 := by decide

theorem witness_ReadDigestWordAnswersTheWord :
    ended.err = false ∧ ended.phase = .done ∧ ended.H = some abcHash ∧ State.reset.err = false ∧
    State.reset.phase ≠ .done ∧ (faulted ended).err = true ∧ (0x50000008#32).toNat / 2 ^ 28 = 5 ∧
    2 ^ 3 ≤ (0x50000008#32).toNat % 2 ^ 28 := by decide

theorem witness_ReadWidthsAgree : ended.err = false ∧ ended.phase = .done ∧ ended.H.isSome := by decide

theorem witness_ReadsAreRepeatable :
    ended.err = false ∧ ended.phase = .done ∧ ended.H.isSome ∧
    ∀ c ∈ [Instr.nop, .readStatus, .readDigestByte 31#5, .readDigestWord 7#3],
      c = .nop ∨ c = .readStatus ∨ (∃ idx, c = .readDigestByte idx) ∨ ∃ widx, c = .readDigestWord widx :=
  ⟨by decide, by decide, by decide, by simp⟩

theorem witness_AbsorbByteBuffersTheByte :
    (absorbing 0 0).err = false ∧ (absorbing 0 0).phase = .absorb ∧ (absorbing 0 0).msgLen.toNat < 2 ^ 61 - 1 ∧
    (absorbing 0 0).bufLen.toNat < 63 ∧ (absorbing (2 ^ 61 - 2) 62).msgLen.toNat < 2 ^ 61 - 1 ∧
    (absorbing (2 ^ 61 - 2) 62).bufLen.toNat < 63 := by decide

theorem witness_AbsorbByteProcessesTheFullBlock :
    (absorbing 63 63).err = false ∧ (absorbing 63 63).phase = .absorb ∧ (absorbing 63 63).msgLen.toNat < 2 ^ 61 - 1 ∧
    (absorbing 63 63).bufLen.toNat = 63 ∧ (∀ i : Fin 64, i.val < 63 → (absorbing 63 63).buf[i] = some block[i]) ∧
    block[63] = 0x61#8 ∧ (absorbing 63 63).H = some Rom.H0 := by decide +kernel

/-- BUF_LEN 55, one block, and 56, two. -/
theorem witness_FinalizeProcessesThePaddedTail :
    ((absorbing 55 55).err = false ∧ (absorbing 55 55).phase = .absorb ∧
      (List.replicate 55 0x61#8).length = (absorbing 55 55).bufLen.toNat ∧ (absorbing 55 55).bufLen.toNat < 64 ∧
      (∀ i : Fin 64, i.val < 55 → (absorbing 55 55).buf[i] = some ((List.replicate 55 0x61#8).getD i.val 0#8)) ∧
      (absorbing 55 55).H = some Rom.H0) ∧
    ((absorbing 56 56).err = false ∧ (absorbing 56 56).phase = .absorb ∧
      (List.replicate 56 0x61#8).length = (absorbing 56 56).bufLen.toNat ∧ (absorbing 56 56).bufLen.toNat < 64 ∧
      (∀ i : Fin 64, i.val < 56 → (absorbing 56 56).buf[i] = some ((List.replicate 56 0x61#8).getD i.val 0#8)) ∧
      (absorbing 56 56).H = some Rom.H0) := by decide +kernel

theorem witness_UnreachableStatesStopTheBlock :
    ((absorbing 64 64).err = false ∧ (absorbing 64 64).phase = .absorb ∧ (absorbing 64 64).msgLen.toNat < 2 ^ 61 - 1 ∧
      64 ≤ (absorbing 64 64).bufLen.toNat) ∧
    ({ absorbing 63 63 with H := none }.bufLen.toNat = 63 ∧ { absorbing 63 63 with H := none }.H = none) ∧
    ({ absorbing 63 0 with bufLen := 63#7 }.bufLen.toNat = 63 ∧
      ∃ i : Fin 64, i.val < { absorbing 63 0 with bufLen := 63#7 }.bufLen.toNat ∧
        { absorbing 63 0 with bufLen := 63#7 }.buf[i] = none) := by decide +kernel

/-- The first and the last of the four BUF bytes and of the four schedule operands unwritten, and each other reader. -/
theorem witness_UnwrittenReadsAreModelFaults :
    let s := { absorbing 63 63 with W := Vector.ofFn fun t => if t.val < 61 then some 0#32 else none }
    State.reset.buf[4 * (15 : Fin 16).val + (0 : Fin 4).val] = none ∧
    ((∀ i : Fin 4, i < 3 → s.buf[4 * (15 : Fin 16).val + i.val].isSome) ∧
      s.buf[4 * (15 : Fin 16).val + (3 : Fin 4).val] = none) ∧
    State.reset.W[(47 : Fin 48).val] = none ∧
    (s.W[(47 : Fin 48).val].isSome ∧ s.W[(47 : Fin 48).val + 1].isSome ∧ s.W[(47 : Fin 48).val + 9].isSome ∧
      s.W[(47 : Fin 48).val + 14] = none) ∧
    (let s := { s with W := s.W.set 56 none };
      s.W[(47 : Fin 48).val].isSome ∧ s.W[(47 : Fin 48).val + 1].isSome ∧ s.W[(47 : Fin 48).val + 9] = none) ∧
    (let s := { s with W := s.W.set 1 none };
      s.W[(0 : Fin 48).val].isSome ∧ s.W[(0 : Fin 48).val + 1] = none) ∧
    State.reset.work = none ∧ State.reset.W[(63 : Fin 64)] = none ∧ State.reset.H = none ∧
    { State.reset with work := some (Working.ofHash Rom.H0) }.work.isSome ∧ (absorbing 0 0).H.isSome ∧
    (absorbing 0 0).work = none ∧
    ({ ended with H := none }.H = none ∧ { ended with H := none }.err = false ∧ { ended with H := none }.phase = .done) := by
  decide +kernel

theorem witness_LoadScheduleCopiesTheBlock : { State.reset with buf := block.map some }.buf = block.map some := rfl

theorem witness_ExpandStepDerivesOneWord :
    let s := { State.reset with W := Vector.replicate 64 (some 0xffffffff#32) }
    (16 ≤ 16 ∧ 16 ≤ 63 ∧ s.W[16 - 16] = some 0xffffffff#32 ∧ s.W[16 - 15] = some 0xffffffff#32 ∧
      s.W[16 - 7] = some 0xffffffff#32 ∧ s.W[16 - 2] = some 0xffffffff#32) ∧
    (16 ≤ 63 ∧ 63 ≤ 63 ∧ s.W[63 - 16] = some 0xffffffff#32 ∧ s.W[63 - 15] = some 0xffffffff#32 ∧
      s.W[63 - 7] = some 0xffffffff#32 ∧ s.W[63 - 2] = some 0xffffffff#32) := by decide

theorem witness_InitWorkingLoadsTheHash : (absorbing 0 0).H = some Rom.H0 := rfl

theorem witness_RoundShiftsTheChain :
    let s := { State.reset with work := some (Working.ofHash Rom.H0), W := Vector.replicate 64 (some 0x61626380#32) }
    s.work = some (Working.ofHash Rom.H0) ∧ s.W[(63 : Fin 64)] = some 0x61626380#32 := by decide

theorem witness_FoldAddsTheWorkingVariables :
    let s := { absorbing 0 0 with work := some (Working.ofHash abcHash) }
    s.H = some Rom.H0 ∧ s.work = some (Working.ofHash abcHash) := by decide

theorem witness_LogicalFunctionsAreTheSpecs : (0 : Nat) < 32 ∧ (31 : Nat) < 32 := by decide

theorem witness_PrimitivesAreTheSpecs : (0 : Nat) < 2 ∧ (25 : Nat) < 32 ∧ (31 : Nat) < 32 := by decide

theorem witness_ProcessBlockRunsTheFiveStages : (absorbing 63 63).seq = .idle := rfl

theorem witness_MicroSequencerRunsTheBlock : State.reset.seq = .idle := rfl

theorem witness_ProcessBlockCompresses :
    let s := { absorbing 64 64 with buf := block.map some }
    s.buf = block.map some ∧ s.H = some Rom.H0 ∧ s.seq = .idle := ⟨rfl, rfl, rfl⟩

theorem witness_ExpandSatisfiesItsRecurrence : (16 ≤ 16 ∧ 16 ≤ 63) ∧ (16 ≤ 63 ∧ 63 ≤ 63) ∧
    { State.reset with buf := block.map some }.buf = block.map some := ⟨by decide, by decide, rfl⟩

theorem witness_PaddedLengthIsTheLeastMultiple : ([] : List Byte).length ≤ 2 ^ 61 - 1 ∧
    (List.replicate 56 0x61#8).length ≤ 2 ^ 61 - 1 ∧ 1024 % 512 = 0 ∧ 8 * (List.replicate 56 0x61#8).length + 65 ≤ 1024 := by
  decide

theorem witness_ChunkPartitionsThePaddedMessage : padBytes [0x61#8] = some ([0x61#8] ++ paddingBytes 1) ∧
    0 < (chunk ([0x61#8] ++ paddingBytes 1)).length := by decide +kernel

theorem witness_HexIsTwoLowercaseDigitsAByte : 1 < ([0xba#8, 0x78#8] : List Byte).length := by decide

/-- One word for each clause: an illegal OP, a reserved bit outside the phase, a wrong phase for each command that checks
one, the overflow at 2^61 - 1, and an accepted byte at 2^61 - 2. -/
theorem witness_FirstFaultInPriorityIsLatched :
    (given (.command 0x70000000#32) ended).pending = .command 0x70000000#32 :: [] ∧
    (given (.command 0x70000000#32) ended).err = false ∧ (given (.command 0x20000100#32) (faulted ended)).err = true ∧
    (0x20000100#32) ≠ 0x60000000#32 ∧ (0x20000100#32).toNat / 2 ^ 28 < 7 ∧ reservedBitSet 0x20000100#32 ∧ ¬ reservedBitSet 0x200000ff#32 ∧
    ¬ reservedBitSet 0x30000000#32 ∧ ¬ reservedBitSet 0x4000001f#32 ∧ ¬ reservedBitSet 0x50000007#32 ∧
    ended.phase ≠ .absorb ∧ (absorbing 0 0).phase ≠ .done ∧ (absorbing (2 ^ 61 - 1) 63).phase = .absorb ∧
    (absorbing (2 ^ 61 - 1) 63).msgLen.toNat = 2 ^ 61 - 1 ∧ (absorbing (2 ^ 61 - 2) 62).msgLen.toNat ≠ 2 ^ 61 - 1 ∧
    (seen State.err (step (given (.command 0x200000ff#32) (absorbing (2 ^ 61 - 2) 62)))) = some false := by
  dsimp only [reservedBitSet]; and_intros <;> decide +kernel

theorem witness_FaultedCoreObeysOnlyNopAndStatus :
    (given (.command 0x60000000#32) (faulted ended)).err = true ∧
    (given (.command 0x60000000#32) (faulted ended)).pending = .command 0x60000000#32 :: [] ∧
    (given (.command 0x60000001#32) (faulted ended)).pending = .command 0x60000001#32 :: [] ∧
    (0x60000001#32) ≠ 0x60000000#32 ∧ (given .reset (faulted ended)).pending = .reset :: [] := by decide

theorem witness_ErrAndCauseChangeOnlyOnTheFaultPath :
    (given (.command 0x70000000#32) ended).err = false ∧
    seen State.err (step (given (.command 0x70000000#32) ended)) = some true ∧
    seen State.cause (step (given (.command 0x70000000#32) ended)) = some .illegalOpcode ∧
    (given .reset (faulted ended)).err = true ∧ seen State.err (step (given .reset (faulted ended))) = some false := by decide

theorem witness_OnlyInitFinalizeAndResetChangePhase :
    seen State.phase (step (given .reset ended)) = some .idle ∧
    seen State.phase (step (given (.command 0x10000000#32) ended)) = some .absorb ∧
    (given (.command 0x30000000#32) absorbedAbc).phase = .absorb ∧
    seen State.phase (step (given (.command 0x30000000#32) absorbedAbc)) = some .done := by decide +kernel

theorem witness_MessageLengthCountsAcceptedBytes :
    seen State.msgLen (step (given (.command 0x10000000#32) ended)) = some 0#61 ∧
    seen State.err (step (given (.command 0x200000ff#32) (absorbing (2 ^ 61 - 2) 62))) = some false ∧
    seen State.err (step (given (.command 0x200000ff#32) (absorbing (2 ^ 61 - 1) 63))) = some true ∧
    (0x30000000#32) ≠ 0x10000000#32 ∧ (0x30000000#32).toNat / 2 ^ 28 ≠ 2 ∧
    seen State.msgLen (step (given (.command 0x30000000#32) absorbedAbc)) = some 3#61 := by decide +kernel

theorem witness_ResetLeavesTheCoreUnstarted :
    (given .reset (faulted ended)).pending = .reset :: [] ∧
    (given (.command 0x10000000#32) (faulted ended)).pending = .command 0x10000000#32 :: [] ∧ (faulted ended).err = true ∧
    (seen State.err (step (given (.command 0x10000000#32) (faulted ended)))).isSome ∧
    (⟨#v[ended, given .reset ended]⟩ : Platform ⟨2, 0⟩).insts[(1 : Fin 2)].pending = .reset :: [] ∧ (0 : Fin 2) ≠ 1 := by
  decide

/-- A step from an invariant state that goes on, and that changes more than the ports. -/
theorem witness_StepKeepsTheInvariant : (absorbing 63 63).Inv ∧ ended.Inv ∧ (faulted ended).Inv ∧
    seen State.bufLen (step (given (.command 0x20000061#32) (absorbing 63 63))) = some 0#7 :=
  ⟨witness_absorbing_inv, witness_ended_inv, witness_faulted_inv, by decide +kernel⟩

theorem witness_RunsFromTheInvariantNeverStop : State.reset.Inv ∧ (absorbing 63 63).Inv :=
  ⟨witness_reset_inv, witness_absorbing_inv⟩

/-- The empty message after INIT, and 63 bytes of a message, one short of a block. -/
theorem witness_AbsorbByteExtendsTheMessage :
    (absorbing 0 0).Absorbed [] ∧ (absorbing 63 63).Absorbed (List.replicate 63 0x61#8) ∧
    (List.replicate 63 0x61#8).length < 2 ^ 61 - 1 ∧ ended.err = false :=
  ⟨⟨by decide, by decide, by decide, by decide, by decide +kernel, by decide⟩,
    ⟨by decide, by decide, by decide, by decide, by decide +kernel, by decide +kernel⟩, by decide, by decide⟩

theorem witness_FinalizeLeavesTheDigest : (absorbing 56 56).Absorbed (List.replicate 56 0x61#8) ∧
    (List.replicate 56 0x61#8).length ≤ 2 ^ 61 - 1 :=
  ⟨⟨by decide, by decide, by decide, by decide, by decide +kernel, by decide +kernel⟩, by decide⟩

theorem witness_CommandMachineComputesSha256 :
    let s := { ended with
      pending := [.command 0x10000000#32, .command 0x20000061#32, .command 0x20000062#32, .command 0x30000000#32, .reset] }
    s.err = false ∧ ([0x61#8, 0x62#8] : List Byte).length ≤ 2 ^ 61 - 1 ∧
    s.pending = .command 0x10000000#32 ::
      ([0x61#8, 0x62#8].map fun b : Byte => .command (BitVec.ofNat 32 (0x20000000 + b.toNat))) ++
      .command 0x30000000#32 :: [.reset] := by decide

/-- Two states that differ in H, MSG_LEN and BUF only, before the same command. -/
theorem witness_HiddenStateIsNotObservable :
    let s₁ := given (.command 0x40000000#32) (absorbing 1 1)
    let s₂ := { s₁ with H := some abcHash, msgLen := 65#61, buf := Vector.replicate 64 (some 0#8) }
    s₁.SameView s₂ ∧ s₁ ≠ s₂ ∧ s₁.phase ≠ .done ∧ (seen State.err (step s₁)).isSome ∧ (seen State.err (step s₂)).isSome ∧
    (faulted ended).SameView { faulted ended with H := none } ∧ (faulted ended).err = true :=
  ⟨⟨rfl, rfl, rfl, rfl, rfl, rfl⟩, by decide, by decide, by decide, by decide, ⟨rfl, rfl, rfl, rfl, rfl, rfl⟩, rfl⟩

/-- The largest number that fits each field and the first that does not, in both forms; an unlisted first word before nothing, a
space and a comma; lines outside quotes where a comment starts, the last with a closed text. -/
theorem witness_AssemblerEncodesItsForms :
    (writesNumber ['2', '5', '5'] 255 ∧ writesNumber ['0', 'x', '1', '0', '0'] 256 ∧ writesNumber ['3', '1'] 31 ∧
      writesNumber ['0', 'x', '2', '0'] 32 ∧ writesNumber ['7'] 7 ∧ writesNumber ['0', 'x', '8'] 8) ∧
    isWord "jump".toList ∧ "jump".toList ∉ listedMnemonics ∧ startsOutside [] ∧ startsOutside [' ', '0'] ∧
    startsOutside [','] ∧ ([] : List Char).count '"' % 2 = 0 ∧ ['a', ' ', '"', 'b', '"', ' '].count '"' % 2 = 0 := by
  refine ⟨⟨.inl (by decide), .inr (by decide), .inl (by decide), .inr (by decide), .inl (by decide), .inr (by decide)⟩,
    ⟨by simp, by simp [wordEnders]⟩, by simp [listedMnemonics], ?_, ?_, ?_, by decide, by decide⟩ <;>
    simp [startsOutside, wordEnders]

/-- `xyz`, a sign, `0x` alone and an upper-case `0X` are no numbers; `2` is a further word. -/
theorem witness_AssemblerRefusesWrongOperands :
    (isWord ['x', 'y', 'z'] ∧ malformedNumber ['x', 'y', 'z']) ∧ (isWord ['-', '1'] ∧ malformedNumber ['-', '1']) ∧
    (isWord ['0', 'x'] ∧ malformedNumber ['0', 'x']) ∧ (isWord ['0', 'X', '1'] ∧ malformedNumber ['0', 'X', '1']) ∧
    (isWord ['0', 'x', 'g'] ∧ malformedNumber ['0', 'x', 'g']) ∧ isWord ['2'] ∧ startsOutside [] ∧ startsOutside [' '] := by
  refine ⟨⟨?_, .inl ⟨by decide, 'x', ?_, ?_⟩⟩, ⟨?_, .inl ⟨by decide, '-', ?_, ?_⟩⟩, ⟨?_, .inr ⟨[], rfl, .inl rfl⟩⟩,
    ⟨?_, .inl ⟨by decide, 'X', ?_, ?_⟩⟩, ⟨?_, .inr ⟨['g'], rfl, .inr ⟨'g', ?_, ?_⟩⟩⟩, ?_, ?_, ?_⟩ <;>
    simp [isWord, startsOutside, wordEnders]

theorem witness_AssemblerExpandsThePseudoCommands :
    '"' ∉ "abc".toList ∧ '"' ∉ ([] : List Char) ∧ (∀ c ∈ "abc".toList, c.toNat < 128) ∧ ¬ (Char.ofNat 128).toNat < 128 ∧
    [(['2', '5', '5'], 255), (['0', 'x', '0'], 0)] ≠ [] ∧
    ∀ p ∈ [(['2', '5', '5'], 255), (['0', 'x', '0'], 0)], writesNumber p.1 p.2 := by
  refine ⟨by decide, by decide, by simp, by decide, by decide, ?_⟩
  simp only [List.forall_mem_cons]
  exact ⟨.inl (by decide), .inr (by decide), by simp⟩

end Sys2Proof.Tests
end

section
/-! Proofs about PHASE (10_state.md R33): the word of a command, what a command word can do, and PHASE after it. -/

namespace Sys2Proof

/-! ## The word of a command -/

/-- A word is a command exactly when its OP selects one and its reserved bits are 0 (R95). -/
theorem decode_eq_cmd_iff {w : Word} {i : Instr} :
    decode w = .cmd i ↔ selectCommand w = some i ∧ reservedClear w = true := by
  unfold decode
  cases selectCommand w <;> cases reservedClear w <;> simp

/-- An operand appended below `a`, as numbers. -/
theorem append_toNat {m k : Nat} (a : BitVec m) (x : BitVec k) : (a ++ x).toNat = a.toNat * 2 ^ k + x.toNat := by
  rw [BitVec.toNat_append, ← Nat.shiftLeft_add_eq_or_of_lt x.isLt, Nat.shiftLeft_eq]

/-- Only a command's own encoding decodes to it (R94, R95). -/
theorem eq_encode_of_decode {w : Word} {i : Instr} (h : decode w = .cmd i) : w = encode i := by
  obtain ⟨hsel, hclear⟩ := decode_eq_cmd_iff.1 h
  rw [reservedClear_iff] at hclear
  rw [selectCommand, opField_toNat] at hsel
  apply BitVec.eq_of_toNat_eq
  split at hsel <;> cases hsel
  all_goals next hop =>
    simp only [hop, operandBits] at hclear
    simp only [encode, append_toNat, BitVec.toNat_ofNat, BitVec.extractLsb'_toNat, Nat.shiftRight_zero]
    omega

theorem decode_initWord : decode 0x10000000#32 = .cmd .init := by decide

theorem decode_finalizeWord : decode 0x30000000#32 = .cmd .finalize := by decide

end Sys2Proof

namespace Sys2Proof.Machine

/-! ## What a command word does -/

/-- What a command word can do when the step goes on: one of its command's effects, or what an illegal word does (R253). -/
theorem runCommand_effect {w : Word} {s t : State} (h : runCommand w s = .next t) :
    (∃ i, decode w = .cmd i ∧ CommandEffect i s t) ∨
    (∃ why, decode w = .illegal why ∧ illegalCommand why s = .next t) := by
  rw [runCommand] at h
  cases hw : decode w with
  | cmd i => rw [hw] at h; exact .inl ⟨i, rfl, exec_effect h⟩
  | illegal why => rw [hw] at h; exact .inr ⟨why, rfl, h⟩

/-! ## PHASE -/

/-- APPEND leaves PHASE as it is. -/
theorem OnlyBlockState.phase_eq {s t : State} (h : OnlyBlockState s t) : t.phase = s.phase := by
  rw [OnlyBlockState] at h
  rw [h]

/-- An illegal word leaves PHASE as it is. -/
theorem illegalCommand_phase_eq {why : Illegal} {s t : State} (h : illegalCommand why s = .next t) :
    t.phase = s.phase := by
  obtain ⟨-, rfl⟩ | ⟨-, rfl⟩ := illegalCommand_eq_next.1 h <;> rfl

/-- PHASE after a command, given ERR and PHASE before it (R33). -/
def phaseAfter : Instr → Bool → Phase → Phase
  | .init, false, _ => .absorb
  | .finalize, false, .absorb => .done
  | _, _, p => p

theorem phaseAfter_err (i : Instr) (p : Phase) : phaseAfter i true p = p := by
  cases i <;> rfl

theorem phaseAfter_of_readsOnly {i : Instr} (h : Instr.readsOnly i) (e : Bool) (p : Phase) : phaseAfter i e p = p := by
  obtain rfl | rfl | ⟨_, rfl⟩ | ⟨_, rfl⟩ := h <;> rfl

theorem phaseAfter_finalize_of_ne {p : Phase} (h : p ≠ .absorb) (e : Bool) : phaseAfter .finalize e p = p := by
  cases p with
  | absorb => exact absurd rfl h
  | idle | done => cases e <;> rfl

/-- PHASE changes only at an obeyed INIT and at an obeyed FINALIZE in ABSORB. -/
theorem phaseAfter_ne {i : Instr} {e : Bool} {p : Phase} (h : phaseAfter i e p ≠ p) :
    e = false ∧ (i = .init ∨ (i = .finalize ∧ p = .absorb)) := by
  unfold phaseAfter at h
  split at h
  · exact ⟨rfl, .inl rfl⟩
  · exact ⟨rfl, .inr ⟨rfl, rfl⟩⟩
  · exact absurd rfl h

/-- Every command leaves PHASE as `phaseAfter` says. -/
theorem CommandEffect.phase_eq {i : Instr} {s t : State} (h : CommandEffect i s t) :
    t.phase = phaseAfter i s.err s.phase := by
  cases h with
  | answer v why _ eq =>
    subst eq
    obtain he | hr := why
    · rw [he, phaseAfter_err]; rfl
    · rw [phaseAfter_of_readsOnly hr]; rfl
  | wrongPhase _ why eq =>
    subst eq
    obtain ⟨rfl | ⟨_, rfl⟩, hp⟩ | ⟨⟨_, rfl⟩ | ⟨_, rfl⟩, -⟩ := why
    · exact (phaseAfter_finalize_of_ne hp _).symm
    all_goals rfl
  | overflow _ _ _ which eq => obtain ⟨_, rfl⟩ := which; rw [eq]; rfl
  | init noErr which eq => rw [eq, which, noErr]; rfl
  | absorb data u _ _ _ which appended eq => rw [eq, which]; exact appended.frame.phase_eq
  | finalize u noErr inAbsorb which _ _ eq => rw [eq, which, noErr, inAbsorb]; rfl

/-- Settles O39: a reset by its own rule; a command word by `phaseAfter` of the command it decodes to, and only INIT's and
FINALIZE's own words decode to these two; an illegal word by its one effect. -/
theorem onlyInitFinalizeAndResetChangePhase : Obligations.OnlyInitFinalizeAndResetChangePhase := by
  intro s t x rest hx h
  cases x with
  | reset =>
    rw [step_of_reset hx] at h
    cases h
    simp [State.reset]
  | command w =>
    rw [step_of_command hx] at h
    obtain ⟨i, hw, e⟩ | ⟨why, hw, e⟩ := runCommand_effect h
    · have hp : t.phase = phaseAfter i s.err s.phase := e.phase_eq
      refine ⟨nofun, ?_, ?_, fun hne => ?_⟩
      · rintro ⟨⟩ he
        cases decode_initWord.symm.trans hw
        rw [hp, he]; rfl
      · rintro ⟨⟩ he ha
        cases decode_finalizeWord.symm.trans hw
        rw [hp, he, ha]; rfl
      · rw [hp] at hne
        obtain ⟨he, rfl | ⟨rfl, ha⟩⟩ := phaseAfter_ne hne
        · exact .inr (.inl ⟨congrArg _ (eq_encode_of_decode hw), he⟩)
        · exact .inr (.inr ⟨congrArg _ (eq_encode_of_decode hw), he, ha⟩)
    · have hp : t.phase = s.phase := illegalCommand_phase_eq (s := { s with pending := rest }) e
      refine ⟨nofun, ?_, ?_, fun hne => absurd hp hne⟩
      · rintro ⟨⟩
        cases decode_initWord.symm.trans hw
      · rintro ⟨⟩
        cases decode_finalizeWord.symm.trans hw

end Sys2Proof.Machine
end

section
/-! Proofs about the decoder (30_encoding.md R92 to R96): OP and the operand of a command as numbers, the reserved bits, and the
opcode map's match and mask. -/

namespace Sys2Proof

/-! ## What selects a command -/

/-- OP is the command's, and the low bits are its operand (R93, R94). -/
def NumberSelects (w : Word) : Instr → Prop
  | .nop => w.toNat / 2 ^ 28 = 0
  | .init => w.toNat / 2 ^ 28 = 1
  | .absorbByte data => w.toNat / 2 ^ 28 = 2 ∧ data = BitVec.ofNat 8 w.toNat
  | .finalize => w.toNat / 2 ^ 28 = 3
  | .readDigestByte idx => w.toNat / 2 ^ 28 = 4 ∧ idx = BitVec.ofNat 5 w.toNat
  | .readDigestWord widx => w.toNat / 2 ^ 28 = 5 ∧ widx = BitVec.ofNat 3 w.toNat
  | .readStatus => w.toNat / 2 ^ 28 = 6

/-- The bottom bits of a word are its number, cut. -/
theorem extractLsb'_zero_eq_ofNat (w : Word) (n : Nat) : w.extractLsb' 0 n = BitVec.ofNat n w.toNat := rfl

theorem selectCommand_eq_some_iff {w : Word} {i : Instr} : selectCommand w = some i ↔ NumberSelects w i := by
  simp only [selectCommand, opField_toNat, extractLsb'_zero_eq_ofNat]
  constructor
  · intro h
    split at h <;> cases h
    all_goals next hop => simp only [NumberSelects, hop, and_self]
  · intro h
    cases i with
    | absorbByte | readDigestByte | readDigestWord => obtain ⟨hop, rfl⟩ := h; simp only [hop]
    | nop | init | finalize | readStatus => simp only [NumberSelects] at h; simp only [h]

/-- OP in 0x7..0xF selects no command (R96). -/
theorem selectCommand_eq_none_iff {w : Word} : selectCommand w = none ↔ 7 ≤ w.toNat / 2 ^ 28 := by
  simp only [selectCommand, opField_toNat]
  split
  case h_8 => simp only [true_iff, imp_false] at *; omega
  all_goals next hop => simp only [reduceCtorEq, hop, false_iff]; decide

/-! ## The reserved bits -/

/-- A word of a defined OP has a reserved bit set exactly when its reserved bits are not all 0 (R92). -/
theorem reservedBitSet_iff {w : Word} (hop : w.toNat / 2 ^ 28 < 7) : reservedBitSet w ↔ reservedClear w = false := by
  rw [← Bool.not_eq_true, reservedClear_iff, reservedBitSet]
  generalize w.toNat / 2 ^ 28 = op at hop ⊢
  interval_cases op <;> simp [operandBits]

/-! ## The three outcomes of the decoder (R95) -/

theorem decode_eq_illegalOpcode_iff {w : Word} :
    decode w = .illegal .illegalOpcode ↔ 7 ≤ w.toNat / 2 ^ 28 := by
  rw [← selectCommand_eq_none_iff, decode]
  cases selectCommand w <;> cases reservedClear w <;> simp

theorem decode_eq_reservedField_iff {w : Word} :
    decode w = .illegal .reservedField ↔ w.toNat / 2 ^ 28 < 7 ∧ reservedClear w = false := by
  rw [← Nat.not_le, ← selectCommand_eq_none_iff, decode]
  cases selectCommand w <;> cases reservedClear w <;> simp

theorem decode_eq_cmd_iff_numberSelects {w : Word} {i : Instr} :
    decode w = .cmd i ↔ NumberSelects w i ∧ reservedClear w = true := by
  rw [decode_eq_cmd_iff, selectCommand_eq_some_iff]

/-- Settles O1: the three outcomes by their equivalences, each command by the number that selects it. -/
theorem decodeClassifiesEveryWord : Obligations.DecodeClassifiesEveryWord := by
  intro w
  refine ⟨decode_eq_illegalOpcode_iff.2, fun hop hset => ?_, fun hset => ?_⟩
  · exact decode_eq_reservedField_iff.2 ⟨hop, (reservedBitSet_iff hop).1 hset⟩
  · have hcmd : ∀ i, w.toNat / 2 ^ 28 < 7 → NumberSelects w i → decode w = .cmd i := fun i hop hsel =>
      decode_eq_cmd_iff_numberSelects.2 ⟨hsel, by simpa [reservedBitSet_iff hop] using hset⟩
    exact ⟨fun h => hcmd .nop (by omega) h, fun h => hcmd .init (by omega) h,
      fun h => hcmd (.absorbByte _) (by omega) ⟨h, rfl⟩, fun h => hcmd .finalize (by omega) h,
      fun h => hcmd (.readDigestByte _) (by omega) ⟨h, rfl⟩, fun h => hcmd (.readDigestWord _) (by omega) ⟨h, rfl⟩,
      fun h => hcmd .readStatus (by omega) h⟩

/-! ## The opcode map -/

/-- A mask of `n` ones from bit `k` up keeps those bits of a number. -/
theorem land_ones_shiftLeft (x n k : Nat) : x &&& ((2 ^ n - 1) <<< k) = x / 2 ^ k % 2 ^ n * 2 ^ k := by
  rw [← Nat.shiftLeft_eq, ← Nat.and_two_pow_sub_one_eq_mod, ← Nat.shiftRight_eq_div_pow, Nat.shiftLeft_and_distrib]
  refine Nat.eq_of_testBit_eq fun i => ?_
  by_cases hi : k ≤ i <;> simp [hi]

/-- A word under a mask of ones from bit `k` up to the top, as numbers. -/
theorem and_topMask_eq_iff {w m p : Word} {k : Nat} (hk : k ≤ 32) (hm : m.toNat = (2 ^ (32 - k) - 1) <<< k) :
    w &&& m = p ↔ w.toNat / 2 ^ k * 2 ^ k = p.toNat := by
  have hlt : w.toNat / 2 ^ k < 2 ^ (32 - k) :=
    Nat.div_lt_of_lt_mul (by rw [← pow_add, Nat.add_sub_cancel' hk]; exact w.isLt)
  rw [← BitVec.toNat_inj, BitVec.toNat_and, hm, land_ones_shiftLeft, Nat.mod_eq_of_lt hlt]

theorem operandBits_le (op : Nat) : operandBits op ≤ 8 := by
  unfold operandBits
  split <;> decide

/-- A row of the opcode map matches a word exactly when OP is the row's and the reserved bits are 0 (R92, R94). -/
theorem matches_row_iff {w m p : Word} (op : Nat)
    (hm : m.toNat = (2 ^ (32 - operandBits op) - 1) <<< operandBits op) (hp : p.toNat = op * 2 ^ 28) :
    w &&& m = p ↔ w.toNat / 2 ^ 28 = op ∧ reservedClear w = true := by
  have hk := operandBits_le op
  rw [and_topMask_eq_iff (by omega) hm, hp, reservedClear_iff]
  have hcut : w.toNat / 2 ^ operandBits op * 2 ^ operandBits op = op * 2 ^ 28 ↔
      w.toNat / 2 ^ 28 = op ∧ w.toNat % 2 ^ 28 < 2 ^ operandBits op := by
    generalize operandBits op = k at hk
    interval_cases k <;> omega
  rw [hcut]
  refine and_congr_right fun h => ?_
  rw [h]

/-- OP as the top four bits of a word, for the rows that select no command (R94, R96). -/
theorem matches_illegalRow_iff (w : Word) :
    (∃ op : Fin 16, 7 ≤ op.val ∧ w &&& 0xF0000000#32 = BitVec.ofNat 32 (op.val * 2 ^ 28)) ↔ 7 ≤ w.toNat / 2 ^ 28 := by
  have hlt := w.isLt
  have hop : ∀ op : Fin 16, w &&& 0xF0000000#32 = BitVec.ofNat 32 (op.val * 2 ^ 28) ↔ w.toNat / 2 ^ 28 = op.val := by
    intro op
    rw [and_topMask_eq_iff (k := 28) (by decide) (by decide), BitVec.toNat_ofNat]
    omega
  simp only [hop]
  constructor
  · rintro ⟨op, hge, heq⟩
    omega
  · exact fun h => ⟨⟨w.toNat / 2 ^ 28, by omega⟩, h, rfl⟩

/-- Settles O3: each row's mask leaves OP and the reserved bits of its format, so the row matches the words whose OP is the
row's and whose reserved bits are 0; these decode to the row's command. -/
theorem opcodeMapSelectsCommands : Obligations.OpcodeMapSelectsCommands := by
  intro w
  simp only [decode_eq_cmd_iff_numberSelects, decode_eq_illegalOpcode_iff, NumberSelects, exists_and_right,
    exists_eq_right]
  exact ⟨matches_row_iff 0 (by decide) (by decide), matches_row_iff 1 (by decide) (by decide),
    matches_row_iff 2 (by decide) (by decide), matches_row_iff 3 (by decide) (by decide),
    matches_row_iff 4 (by decide) (by decide), matches_row_iff 5 (by decide) (by decide),
    matches_row_iff 6 (by decide) (by decide), matches_illegalRow_iff w⟩

end Sys2Proof
end

section
/-! Proofs about the two ports (30_encoding.md R90): a command word is taken and answered by one response, 0 unless the command
reports a value. -/

namespace Sys2Proof.Machine

/-! ## The one response of a command -/

/-- APPEND leaves both ports as they are. -/
theorem OnlyBlockState.ports_eq {s t : State} (h : OnlyBlockState s t) :
    t.pending = s.pending ∧ t.responses = s.responses := by
  rw [OnlyBlockState] at h
  rw [h]
  exact ⟨rfl, rfl⟩

/-- The input port is unchanged and exactly one response is added, 0 unless `P` holds. -/
def AnswersOnce (P : Prop) (s t : State) : Prop :=
  t.pending = s.pending ∧ ∃ v, t.responses = v :: s.responses ∧ (v ≠ 0#32 → P)

/-- A response of 0 from a state with the same ports. -/
theorem answersOnce_respond_zero {P : Prop} {s u : State} (h : u.pending = s.pending ∧ u.responses = s.responses) :
    AnswersOnce P s (u.respond 0#32) :=
  ⟨h.1, 0#32, congrArg _ h.2, absurd rfl⟩

/-- The command reports a value from this state: READ_STATUS always, a digest read in DONE with ERR = 0. -/
def ReportsValue (i : Instr) (s : State) : Prop :=
  i = .readStatus ∨
    (s.err = false ∧ s.phase = .done ∧ ((∃ idx, i = .readDigestByte idx) ∨ ∃ widx, i = .readDigestWord widx))

/-- A command other than NOP that leaves the core unchanged and answers a value other than 0 is one that reports. -/
theorem reportsValue_of_value {i : Instr} {s : State} (hnop : i ≠ .nop) (hwhy : s.err = true ∨ Instr.readsOnly i)
    (hvalue : i = .readStatus ∨ (s.err = false ∧ s.phase = .done)) : ReportsValue i s := by
  obtain rfl | ⟨he, hp⟩ := hvalue
  · exact .inl rfl
  · obtain he' | rfl | rfl | hbyte | hword := hwhy
    · exact absurd (he.symm.trans he') nofun
    · exact absurd rfl hnop
    · exact .inl rfl
    · exact .inr ⟨he, hp, .inl hbyte⟩
    · exact .inr ⟨he, hp, .inr hword⟩

theorem CommandEffect.answersOnce {i : Instr} {s t : State} (hnop : i ≠ .nop) (h : CommandEffect i s t) :
    AnswersOnce (ReportsValue i s) s t := by
  cases h with
  | answer v why value eq =>
    rw [eq]
    exact ⟨rfl, v, rfl, fun hv => reportsValue_of_value hnop why (value.resolve_left hv)⟩
  | absorb data u _ _ _ _ appended eq =>
    rw [eq]
    exact answersOnce_respond_zero appended.frame.ports_eq
  | finalize u _ _ _ _ appended eq =>
    rw [eq]
    exact answersOnce_respond_zero (u := { u with phase := .done }) appended.frame.ports_eq
  | wrongPhase _ _ eq | overflow _ _ _ _ eq | init _ _ eq =>
    rw [eq]
    exact answersOnce_respond_zero ⟨rfl, rfl⟩

/-- Every command answers once; NOP with 0 in every state (R250). -/
theorem exec_answersOnce {i : Instr} {s t : State} (h : exec i s = .next t) : AnswersOnce (ReportsValue i s) s t := by
  by_cases hnop : i = .nop
  · subst hnop
    cases h
    exact answersOnce_respond_zero ⟨rfl, rfl⟩
  · exact (exec_effect h).answersOnce hnop

/-- An illegal word answers 0 once, latched or ignored. -/
theorem illegalCommand_answersOnce {P : Prop} {why : Illegal} {s t : State} (h : illegalCommand why s = .next t) :
    AnswersOnce P s t := by
  obtain ⟨-, rfl⟩ | ⟨-, rfl⟩ := illegalCommand_eq_next.1 h <;> exact answersOnce_respond_zero ⟨rfl, rfl⟩

/-- The words that report a value are READ_STATUS's own and those whose OP is a digest read's. -/
theorem word_of_reportsValue {i : Instr} {w : Word} {s : State} (hw : decode w = .cmd i) (h : ReportsValue i s) :
    w = 0x60000000#32 ∨ (s.err = false ∧ s.phase = .done ∧ (w.toNat / 2 ^ 28 = 4 ∨ w.toNat / 2 ^ 28 = 5)) := by
  obtain ⟨hsel, -⟩ := decode_eq_cmd_iff_numberSelects.1 hw
  obtain rfl | ⟨he, hp, ⟨idx, rfl⟩ | ⟨widx, rfl⟩⟩ := h
  · exact .inl (eq_encode_of_decode hw)
  · exact .inr ⟨he, hp, .inl hsel.1⟩
  · exact .inr ⟨he, hp, .inr hsel.1⟩

/-- Settles O6: a command answers once, with a value only if it reports one; an illegal word answers 0 once. -/
theorem everyCommandHasOneResponse : Obligations.EveryCommandHasOneResponse := by
  intro s t w rest hx h
  rw [step_of_command hx, runCommand] at h
  cases hw : decode w with
  | cmd i =>
    rw [hw] at h
    obtain ⟨hpending, v, hresp, hvalue⟩ := exec_answersOnce h
    exact ⟨hpending, v, hresp, fun hv => word_of_reportsValue hw (hvalue hv)⟩
  | illegal why =>
    rw [hw] at h
    exact illegalCommand_answersOnce h

end Sys2Proof.Machine
end

section
/-! Proofs about the schedule expander (42_schedule_expander.md) and the logical functions of the compressor (43_compressor.md
R191 to R193): big-endian words and sums modulo 2^32 as numbers, rotations, and Ch and Maj bit by bit. -/

namespace Sys2Proof.Machine

/-! ## Rotations, and Ch and Maj bit by bit -/

theorem rotr_eq_rotateRight {n : Nat} (hn : n < 32) (x : Word) : rotr x n = x.rotateRight n := by
  rw [rotr, BitVec.rotateRight_def, Nat.mod_eq_of_lt hn]

/-- Each bit of e chooses the bit of f or of g (R192). -/
theorem getLsbD_ch (e f g : Word) {i : Nat} (hi : i < 32) :
    (ch e f g).getLsbD i = if e.getLsbD i then f.getLsbD i else g.getLsbD i := by
  simp only [ch, BitVec.getLsbD_xor, BitVec.getLsbD_and, BitVec.getLsbD_not, hi, decide_true, Bool.true_and]
  cases e.getLsbD i <;> simp

/-- Each bit is the majority of the three (R193). -/
theorem getLsbD_maj (a b c : Word) (i : Nat) :
    (maj a b c).getLsbD i = decide (2 ≤ (a.getLsbD i).toNat + (b.getLsbD i).toNat + (c.getLsbD i).toNat) := by
  simp only [maj, BitVec.getLsbD_xor, BitVec.getLsbD_and]
  cases a.getLsbD i <;> cases b.getLsbD i <;> cases c.getLsbD i <;> rfl

theorem ch_zero (f g : Word) : ch 0#32 f g = g := by
  rw [ch, BitVec.zero_and, BitVec.not_zero, BitVec.allOnes_and, BitVec.zero_xor]

theorem ch_allOnes (f g : Word) : ch (BitVec.allOnes 32) f g = f := by
  rw [ch, BitVec.allOnes_and, BitVec.not_allOnes, BitVec.zero_and, BitVec.xor_zero]

theorem maj_self (x y : Word) : maj x x y = x := by
  rw [maj, BitVec.and_self, BitVec.xor_assoc, BitVec.xor_self, BitVec.xor_zero]

theorem maj_zero_allOnes (y : Word) : maj 0#32 (BitVec.allOnes 32) y = y := by
  rw [maj, BitVec.zero_and, BitVec.zero_and, BitVec.xor_self, BitVec.allOnes_and, BitVec.zero_xor]

/-- Settles O24: `rotr` by a distance below 32 is the rotation; Ch and Maj by their bits; the corner values of the sigmas by
evaluation. -/
theorem logicalFunctionsAreTheSpecs : Obligations.LogicalFunctionsAreTheSpecs := by
  unfold Obligations.LogicalFunctionsAreTheSpecs
  refine ⟨fun x => ?sigma0, fun x => ?sigma1, fun x => ?bigSigma0, fun x => ?bigSigma1,
    fun e f g i hi => getLsbD_ch e f g hi, fun a b c i _ => getLsbD_maj a b c i,
    by decide, by decide, by decide, by decide, by decide, by decide,
    by decide, by decide, by decide, by decide, by decide, by decide,
    fun f g => ⟨ch_zero f g, ch_allOnes f g⟩, fun x y => ⟨maj_self x y, maj_zero_allOnes y⟩⟩
  case sigma0 => simp (disch := decide) only [sigma0, shr, rotr_eq_rotateRight]
  case sigma1 => simp (disch := decide) only [sigma1, shr, rotr_eq_rotateRight]
  case bigSigma0 => simp (disch := decide) only [bigSigma0, rotr_eq_rotateRight]
  case bigSigma1 => simp (disch := decide) only [bigSigma1, rotr_eq_rotateRight]

/-! ## LOAD_SCHEDULE -/

theorem be32_toNat (b0 b1 b2 b3 : Byte) :
    (be32 b0 b1 b2 b3).toNat = b0.toNat * 2 ^ 24 + b1.toNat * 2 ^ 16 + b2.toNat * 2 ^ 8 + b3.toNat := by
  simp only [be32, append_toNat]
  omega

theorem be32_eq_ofNat (b0 b1 b2 b3 : Byte) :
    be32 b0 b1 b2 b3 = BitVec.ofNat 32 (b0.toNat * 2 ^ 24 + b1.toNat * 2 ^ 16 + b2.toNat * 2 ^ 8 + b3.toNat) := by
  rw [← be32_toNat, BitVec.ofNat_toNat, BitVec.setWidth_eq]

theorem getElem_loadedSchedule_seed (B : Vector Byte 64) (W : Vector (Option Word) 64) (t : Fin 16) :
    (loadedSchedule B W)[t.val] = some (seedWord B t) := by
  simp [loadedSchedule]

theorem getElem_loadedSchedule_rest (B : Vector Byte 64) (W : Vector (Option Word) 64) {t : Fin 64} (ht : 16 ≤ t.val) :
    (loadedSchedule B W)[t] = W[t] := by
  simp [loadedSchedule, Nat.not_lt.2 ht]

/-- Settles O19: the loaded schedule holds the seed words, which are big-endian, and the old words from 16 on. -/
theorem loadScheduleCopiesTheBlock : Obligations.LoadScheduleCopiesTheBlock := by
  intro s B hb
  refine ⟨loadedSchedule B s.W, loadSchedule_of_written hb, fun t => ?_, fun t ht => getElem_loadedSchedule_rest B s.W ht⟩
  rw [getElem_loadedSchedule_seed, seedWord, be32_eq_ofNat]

/-! ## EXPAND_STEP -/

theorem scheduleWord_eq_ofNat (w16 w15 w7 w2 : Word) : scheduleWord w16 w15 w7 w2 =
    BitVec.ofNat 32 (w16.toNat + (sigma0 w15).toNat + w7.toNat + (sigma1 w2).toNat) := by
  simp only [scheduleWord, add32, List.map_cons, List.map_nil, List.sum_cons, List.sum_nil, Nat.add_zero, Nat.add_assoc]

/-- Settles O20: with t = k + 16 the step is the model's on written operands, and the word it writes is the four-term sum. -/
theorem expandStepDerivesOneWord : Obligations.ExpandStepDerivesOneWord := by
  intro s t ht16 ht63 w16 w15 w7 w2 h16 h15 h7 h2
  obtain ⟨k, rfl⟩ := Nat.exists_eq_add_of_le' ht16
  rw [← scheduleWord_eq_ofNat]
  exact expandStep_of_written (k := ⟨k, by omega⟩) h16 h15 h7 h2

end Sys2Proof.Machine
end

section
/-! Proofs about the compressor (43_compressor.md R204, R205, R208): INIT_WORKING, ROUND and FOLD on written elements, and the
sums of R10 as modular additions of words. -/

namespace Sys2Proof.Machine

/-! ## INIT_WORKING -/

theorem initWorking_of_written {s : State} {H : Vector Word 8} (hH : s.H = some H) :
    initWorking s = .next { s with work := some (Working.ofHash H) } := by
  rw [initWorking, readHash, hH, readElement_some]

/-- Settles O21: H is read whole, and a..h are its words in order. -/
theorem initWorkingLoadsTheHash : Obligations.InitWorkingLoadsTheHash := fun _ _ hH =>
  initWorking_of_written hH

/-! ## Sums of words -/

/-- The low 32 bits of a sum led by a word, the sum's carries discarded (R10). -/
theorem ofNat_toNat_add (x : Word) (n : Nat) : BitVec.ofNat 32 (x.toNat + n) = x + BitVec.ofNat 32 n := by
  rw [BitVec.ofNat_add, BitVec.ofNat_toNat, BitVec.setWidth_eq]

/-- Two words added modulo 2^32 are the machine sum of the words (R10). -/
theorem add32_pair (x y : Word) : add32 [x, y] = x + y := by
  rw [add32, List.map_cons, List.sum_cons, ofNat_toNat_add, List.map_singleton, List.sum_singleton, BitVec.ofNat_toNat,
    BitVec.setWidth_eq]

/-! ## ROUND -/

theorem roundStep_of_written {s : State} {t : Fin 64} {v : Working} {w : Word} (hv : s.work = some v)
    (hw : s.W[t] = some w) : roundStep t s = .next { s with work := some (roundF v Rom.K[t] w) } := by
  rw [roundStep, readWorking, hv, readElement_some, readW, hw, readElement_some]

theorem roundT1_eq_ofNat (v : Working) (k w : Word) : roundT1 v k w =
    BitVec.ofNat 32 (v.h.toNat + (bigSigma1 v.e).toNat + (ch v.e v.f v.g).toNat + k.toNat + w.toNat) := by
  simp only [roundT1, add32, List.map_cons, List.map_nil, List.sum_cons, List.sum_nil, Nat.add_zero, Nat.add_assoc]

theorem roundT2_eq_ofNat (v : Working) :
    roundT2 v = BitVec.ofNat 32 ((bigSigma0 v.a).toNat + (maj v.a v.b v.c).toNat) := by
  simp only [roundT2, add32, List.map_cons, List.map_nil, List.sum_cons, List.sum_nil, Nat.add_zero]

/-- Settles O22: the round reads a..h and W[t] of before it, and T1 and T2 may be reduced before or after the last sums. -/
theorem roundShiftsTheChain : Obligations.RoundShiftsTheChain := by
  intro s t v w hv hw T1 T2 after
  have ha : add32 [roundT1 v Rom.K[t] w, roundT2 v] = BitVec.ofNat 32 (T1 + T2) := by
    rw [add32_pair, roundT1_eq_ofNat, roundT2_eq_ofNat]
    exact (BitVec.ofNat_add T1 T2).symm
  have he : add32 [v.d, roundT1 v Rom.K[t] w] = BitVec.ofNat 32 (v.d.toNat + T1) := by
    rw [add32_pair, roundT1_eq_ofNat, ofNat_toNat_add]
  rw [roundStep_of_written hv hw, roundF, ha, he]

/-! ## FOLD -/

theorem foldStep_of_written {s : State} {H : Vector Word 8} {v : Working} (hH : s.H = some H) (hv : s.work = some v) :
    foldStep s = .next { s with H := some (foldHash H v) } := by
  rw [foldStep, readHash, hH, readElement_some, readWorking, hv, readElement_some]

/-- Each word of H is added to its own working variable, in a word of its own (R208). -/
theorem getElem_foldHash (H : Vector Word 8) (v : Working) (k : Fin 8) :
    (foldHash H v)[k.val] = H[k] + v.toVector[k] := by
  rw [foldHash, Vector.getElem_ofFn, add32_pair]

/-- The eight sums of FOLD written out (R208). -/
theorem foldHash_eq (H : Vector Word 8) (v : Working) :
    foldHash H v = #v[H[0] + v.a, H[1] + v.b, H[2] + v.c, H[3] + v.d, H[4] + v.e, H[5] + v.f, H[6] + v.g, H[7] + v.h] := by
  refine Vector.ext fun k hk => ?_
  rw [getElem_foldHash H v ⟨k, hk⟩]
  match k, hk with
  | 0, _ | 1, _ | 2, _ | 3, _ | 4, _ | 5, _ | 6, _ | 7, _ => rfl

/-- Settles O23: H and a..h are read whole, and the new H is the vector of the eight sums. -/
theorem foldAddsTheWorkingVariables : Obligations.FoldAddsTheWorkingVariables := by
  intro s H v hH hv
  rw [foldStep_of_written hH hv, foldHash_eq]

end Sys2Proof.Machine
end

section
/-! Proofs about the output serializer (44_output_serializer.md): the two digest reads (R234, R235), the order of the digest's
bytes (R230) and the text form (R236). -/

namespace Sys2Proof.Machine

/-! ## A word with a reserved bit set -/

/-- A word of a defined OP with a reserved bit set is not looked at further, PHASE included (R253, R306). -/
theorem runCommand_of_reservedBitSet {w : Word} {s : State} (he : s.err = false) (hop : w.toNat / 2 ^ 28 < 7)
    (hset : reservedBitSet w) : runCommand w s = latched .reservedField s := by
  have hw : decode w = .illegal .reservedField :=
    decode_eq_reservedField_iff.2 ⟨hop, (reservedBitSet_iff hop).1 hset⟩
  rw [runCommand, hw]
  exact unlessErr_of_noErr he _

/-! ## The digest reads -/

/-- What the two digest reads share: the two checks, then an answer computed from H (R234, R235). -/
def digestRead (answer : Vector Word 8 → Word) (s : State) : Result :=
  unlessErr s fun s => inPhase .done s fun s => readHash s fun h => .next (s.respond (answer h))

theorem exec_readDigestByte (idx : BitVec 5) (s : State) :
    exec (.readDigestByte idx) s = digestRead (fun h => zext32 (digestByte h idx)) s := rfl

theorem exec_readDigestWord (widx : BitVec 3) (s : State) :
    exec (.readDigestWord widx) s = digestRead (fun h => digestWord h widx) s := rfl

theorem digestRead_of_written (answer : Vector Word 8 → Word) {s : State} {h : Vector Word 8} (he : s.err = false)
    (hp : s.phase = .done) (hH : s.H = some h) : digestRead answer s = answered (answer h) s := by
  rw [digestRead, unlessErr_of_noErr he, inPhase_of_eq hp, readHash, hH, readElement_some]
  rfl

theorem digestRead_of_wrongPhase (answer : Vector Word 8 → Word) {s : State} (he : s.err = false)
    (hp : s.phase ≠ .done) : digestRead answer s = latched .wrongPhase s := by
  rw [digestRead, unlessErr_of_noErr he, inPhase_of_ne hp]
  rfl

theorem digestRead_of_err (answer : Vector Word 8 → Word) {s : State} (he : s.err = true) :
    digestRead answer s = answered 0#32 s :=
  unlessErr_of_err he _

theorem encode_readDigestByte (idx : BitVec 5) :
    encode (.readDigestByte idx) = BitVec.ofNat 32 (0x40000000 + idx.toNat) := by
  have := idx.isLt
  apply BitVec.eq_of_toNat_eq
  simp only [encode, append_toNat, BitVec.toNat_ofNat]
  omega

theorem encode_readDigestWord (widx : BitVec 3) :
    encode (.readDigestWord widx) = BitVec.ofNat 32 (0x50000000 + widx.toNat) := by
  have := widx.isLt
  apply BitVec.eq_of_toNat_eq
  simp only [encode, append_toNat, BitVec.toNat_ofNat]
  omega

/-- Settles O11: the word read is a digest read whose answer is H[WIDX]; OP 5 leaves three bits for the operand. -/
theorem readDigestWordAnswersTheWord : Obligations.ReadDigestWordAnswersTheWord := by
  simp only [Obligations.ReadDigestWordAnswersTheWord, exec_readDigestWord]
  exact ⟨fun _ _ _ he hp hH => digestRead_of_written _ he hp hH, fun _ _ he hp => digestRead_of_wrongPhase _ he hp,
    fun _ _ he => digestRead_of_err _ he, encode_readDigestWord, fun _ _ he hop hlow =>
      runCommand_of_reservedBitSet he (by omega) (.inr (.inr (.inr ⟨hop, hlow⟩)))⟩

/-! ## The bytes of a word -/

/-- Byte `j` of a word from the top is its number cut between two powers of two (R11, R63). -/
theorem wordByte_eq_ofNat (w : Word) (j : Nat) : wordByte w j = BitVec.ofNat 8 (w.toNat / 2 ^ (24 - 8 * j)) := by
  rw [← Nat.shiftRight_eq_div_pow]
  rfl

theorem idxWord_toNat (idx : BitVec 5) : (idxWord idx).toNat = idx.toNat / 4 := by
  have := idx.isLt
  simp only [idxWord, BitVec.extractLsb'_toNat, Nat.shiftRight_eq_div_pow]
  omega

theorem idxByte_toNat (idx : BitVec 5) : (idxByte idx).toNat = idx.toNat % 4 := rfl

/-- The answer of READ_DIGEST_BYTE as arithmetic on H (R234). -/
theorem zext32_digestByte (h : Vector Word 8) (idx : BitVec 5) :
    zext32 (digestByte h idx) = BitVec.ofNat 32
      ((h[idx.toNat / 4]'(by have := idx.isLt; omega)).toNat / 2 ^ (24 - 8 * (idx.toNat % 4)) % 2 ^ 8) := by
  rw [zext32, ← BitVec.ofNat_toNat, digestByte, wordByte_eq_ofNat, BitVec.toNat_ofNat]
  simp only [digestWord, idxWord_toNat, idxByte_toNat]

/-- Settles O10: the byte read is a digest read whose answer is the byte of H; OP 4 leaves five bits for the operand. -/
theorem readDigestByteAnswersTheByte : Obligations.ReadDigestByteAnswersTheByte := by
  simp only [Obligations.ReadDigestByteAnswersTheByte, exec_readDigestByte, ← zext32_digestByte]
  exact ⟨fun _ _ _ he hp hH => digestRead_of_written _ he hp hH, fun _ _ he hp => digestRead_of_wrongPhase _ he hp,
    fun _ _ he => digestRead_of_err _ he, encode_readDigestByte, fun _ _ he hop hlow =>
      runCommand_of_reservedBitSet he (by omega) (.inr (.inr (.inl ⟨hop, hlow⟩)))⟩

/-! ## Concatenations of pieces of one length -/

section
variable {α β : Type} {f : α → List β} {k : Nat}

theorem length_flatMap_of_length (hf : ∀ x, (f x).length = k) (xs : List α) :
    (xs.flatMap f).length = k * xs.length := by
  simp only [List.length_flatMap, hf, List.map_const', List.sum_replicate, smul_eq_mul, Nat.mul_comm]

/-- Entry `j` of piece `n` stands at `k n + j`. -/
theorem getElem?_flatMap_of_length (hf : ∀ x, (f x).length = k) {j : Nat} (hj : j < k) (xs : List α) {n : Nat}
    (hn : n < xs.length) : (xs.flatMap f)[k * n + j]? = (f xs[n])[j]? := by
  induction xs generalizing n with
  | nil => exact absurd hn (Nat.not_lt_zero n)
  | cons x xs ih =>
    rw [List.flatMap_cons]
    cases n with
    | zero =>
      have hfirst : k * 0 + j < (f x).length := by rw [hf]; omega
      rw [List.getElem?_append_left hfirst, Nat.mul_zero, Nat.zero_add]
      rfl
    | succ n =>
      have hlater : (f x).length ≤ k * (n + 1) + j := by rw [hf, Nat.mul_succ]; omega
      have hrest : k * (n + 1) + j - (f x).length = k * n + j := by rw [hf, Nat.mul_succ]; omega
      rw [List.getElem?_append_right hlater, hrest, ih (Nat.lt_of_succ_lt_succ hn)]
      rfl

end

/-! ## The digest and its text -/

theorem length_bytesBE32 (w : Word) : (bytesBE32 w).length = 4 := rfl

/-- The bytes of a word stand most significant first (R11). -/
theorem getElem?_bytesBE32 (w : Word) (j : Fin 4) : (bytesBE32 w)[j.val]? = some (wordByte w j.val) :=
  match j with
  | 0 | 1 | 2 | 3 => rfl

theorem length_serialize (H : Vector Word 8) : (serialize H).length = 32 := by
  rw [serialize, length_flatMap_of_length length_bytesBE32, Vector.length_toList]

/-- Settles O34: the digest is the four bytes of each word laid end to end. -/
theorem digestIsBigEndian : Obligations.DigestIsBigEndian := by
  intro H
  refine ⟨length_serialize H, fun i j => ?_⟩
  rw [serialize, getElem?_flatMap_of_length length_bytesBE32 j.isLt H.toList (by simp), getElem?_bytesBE32,
    wordByte_eq_ofNat, Vector.getElem_toList]
  rfl

/-- The digit of a nibble is the character at its place among the sixteen (R236). -/
theorem some_hexDigit (n : BitVec 4) : some (hexDigit n) = "0123456789abcdef".toList[n.toNat]? := by
  revert n
  decide

/-- The two digits of one byte. -/
def hexByte (b : Byte) : List Char := [hexDigit (b.extractLsb' 4 4), hexDigit (b.extractLsb' 0 4)]

theorem length_hexByte (b : Byte) : (hexByte b).length = 2 := rfl

theorem length_hex (D : List Byte) : (hex D).length = 2 * D.length :=
  length_flatMap_of_length length_hexByte D

/-- Digit `j` of byte `n` stands at `2n + j`. -/
theorem getElem?_hex (D : List Byte) {n j : Nat} (hn : n < D.length) (hj : j < 2) :
    (hex D)[2 * n + j]? = (hexByte D[n])[j]? :=
  getElem?_flatMap_of_length length_hexByte hj D hn

theorem highNibble_toNat (b : Byte) : (b.extractLsb' 4 4).toNat = b.toNat / 16 := by
  have := b.isLt
  simp only [BitVec.extractLsb'_toNat, Nat.shiftRight_eq_div_pow]
  omega

theorem lowNibble_toNat (b : Byte) : (b.extractLsb' 0 4).toNat = b.toNat % 16 := rfl

/-- Settles O35: each byte's two digits stand together, the high nibble's first; a digest has 32 bytes. -/
theorem hexIsTwoLowercaseDigitsAByte : Obligations.HexIsTwoLowercaseDigitsAByte := by
  refine ⟨fun D => ⟨length_hex D, fun n hn => ⟨?high, ?low⟩⟩, fun H => by rw [length_hex, length_serialize]⟩
  case high => rw [← highNibble_toNat, ← some_hexDigit]; exact getElem?_hex D hn (j := 0) (by decide)
  case low => rw [← lowNibble_toNat, ← some_hexDigit]; exact getElem?_hex D hn (j := 1) (by decide)

end Sys2Proof.Machine
end

section
/-! Proofs about the control commands (45_control.md): the words of format N, NOP (R250), INIT (R251), and READ_STATUS (R252)
with the status word as a number (R44). -/

namespace Sys2Proof.Machine

/-! ## The words of format N -/

/-- Every bit below OP is reserved in format N, so another word of the same OP has one set (R92). -/
theorem reservedBitSet_of_formatN {w : Word} {op : Nat} (hN : op = 0 ∨ op = 1 ∨ op = 3 ∨ op = 6)
    (hop : w.toNat / 2 ^ 28 = op) (hne : w ≠ BitVec.ofNat 32 (op * 2 ^ 28)) : reservedBitSet w := by
  have hlow : w.toNat % 2 ^ 28 ≠ 0 := fun hzero => hne <| by
    apply BitVec.eq_of_toNat_eq
    rw [BitVec.toNat_ofNat]
    omega
  exact .inl ⟨by rwa [hop], hlow⟩

/-- Such a word latches RESERVED_FIELD, or is ignored with ERR = 1 (R253, R305). -/
theorem runCommand_of_formatN {w : Word} {op : Nat} (hN : op = 0 ∨ op = 1 ∨ op = 3 ∨ op = 6)
    (hop : w.toNat / 2 ^ 28 = op) (hne : w ≠ BitVec.ofNat 32 (op * 2 ^ 28)) (s : State) :
    runCommand w s = if s.err then answered 0#32 s else latched .reservedField s := by
  have hdefined : w.toNat / 2 ^ 28 < 7 := by omega
  have hset : reservedBitSet w := reservedBitSet_of_formatN hN hop hne
  rw [runCommand, decode_eq_reservedField_iff.2 ⟨hdefined, (reservedBitSet_iff hdefined).1 hset⟩]
  rfl

theorem runCommand_of_formatN_of_noErr {w : Word} {op : Nat} (hN : op = 0 ∨ op = 1 ∨ op = 3 ∨ op = 6)
    (hop : w.toNat / 2 ^ 28 = op) (hne : w ≠ BitVec.ofNat 32 (op * 2 ^ 28)) {s : State} (he : s.err = false) :
    runCommand w s = latched .reservedField s :=
  runCommand_of_reservedBitSet he (by omega) (reservedBitSet_of_formatN hN hop hne)

/-! ## The status word -/

theorem phaseCode_toNat (p : Phase) : (phaseCode p).toNat = phaseNumber p := by
  cases p <;> rfl

theorem causeCode_toNat (c : Cause) : (causeCode c).toNat = causeNumber c := by
  cases c <;> rfl

theorem statusWord_toNat (s : State) : (statusWord s).toNat = statusNumber s := by
  have hbuf : (s.bufLen.extractLsb' 0 6).toNat = s.bufLen.toNat % 64 := rfl
  simp only [statusWord, append_toNat, BitVec.toNat_ofNat, BitVec.toNat_ofBool, hbuf, phaseCode_toNat, causeCode_toNat,
    statusNumber]
  omega

/-- READ_STATUS answers the number of the status word, from every state (R252). -/
theorem exec_readStatus (s : State) : exec .readStatus s = answered (BitVec.ofNat 32 (statusNumber s)) s := by
  rw [← statusWord_toNat, BitVec.ofNat_toNat, BitVec.setWidth_eq]
  rfl

/-! ## The commands -/

theorem exec_nop (s : State) : exec .nop s = answered 0#32 s := rfl

/-- INIT's next state, before its response (R251). -/
def startDigest (s : State) : State := { s with H := some Rom.H0, msgLen := 0#61, bufLen := 0#7, phase := .absorb }

theorem exec_init_of_noErr {s : State} (he : s.err = false) : exec .init s = answered 0#32 (startDigest s) := by
  rw [exec, execInit, unlessErr_of_noErr he]
  rfl

theorem exec_init_of_err {s : State} (he : s.err = true) : exec .init s = answered 0#32 s := by
  rw [exec, execInit, unlessErr_of_err he]
  rfl

theorem exec_absorbByte_of_wrongPhase {data : Byte} {s : State} (he : s.err = false) (hp : s.phase ≠ .absorb) :
    exec (.absorbByte data) s = latched .wrongPhase s := by
  rw [exec, execAbsorbByte, unlessErr_of_noErr he, inPhase_of_ne hp]
  rfl

/-- Settles O9: the status word is its fields at their places; OP 6 has format N; the BUF_LEN clauses are the invariant's;
against an IDLE core ABSORB_BYTE latches WRONG_PHASE, code 3, with BUF_LEN = 0. -/
theorem readStatusReportsTheState : Obligations.ReadStatusReportsTheState := by
  refine ⟨exec_readStatus, by decide, fun s w hop hne => runCommand_of_formatN (by decide) hop hne s,
    fun s hs => ⟨fun hp => ?done, fun hp => ?absorb⟩, fun s t data hs he hp h => ?afterWrongPhase⟩
  case done => rw [hs.doneEmpty hp]; rfl
  case absorb => rw [hs.absorbCount hp, Nat.mod_mod]
  case afterWrongPhase =>
    rw [exec_absorbByte_of_wrongPhase he (by rw [hp]; decide)] at h
    cases h
    have hstatus : statusNumber { s with err := true, cause := .wrongPhase, responses := 0#32 :: s.responses } =
        0x3004 := by
      simp only [statusNumber, hp, (hs.idleEmpty hp).1]
      rfl
    rw [exec_readStatus, hstatus]

/-- Settles O7: NOP has no check, OP 0 has format N, and the status word of the reset state is 0. -/
theorem nopDoesNothing : Obligations.NopDoesNothing := by
  refine ⟨exec_nop, by decide, fun s w he hop hne => runCommand_of_formatN_of_noErr (by decide) hop hne he,
    fun t h => ?_⟩
  rw [exec_nop] at h
  cases h
  rfl

/-- Settles O8: past its one check INIT writes constants only, so a second INIT finds them written; OP 1 has format N. -/
theorem initStartsADigest : Obligations.InitStartsADigest := by
  refine ⟨fun s he => exec_init_of_noErr he, fun s he => exec_init_of_err he, by decide,
    fun s w he hop hne => runCommand_of_formatN_of_noErr (by decide) hop hne he,
    fun s t he h => ?again, fun s t he hc h => ?status⟩
  all_goals
    rw [exec_init_of_noErr he] at h
    cases h
  case again => exact exec_init_of_noErr he
  case status => simp [statusNumber, startDigest, phaseNumber, causeNumber, he, hc]

end Sys2Proof.Machine
end

section
/-! Proofs about the faults (60_exceptions.md): a faulted core (R305), and with ERR = 0 the conditions of a fault in their
order (R303, R304, R306) and the words that meet none. -/

namespace Sys2Proof.Machine

/-! ## The faulted core (R305) -/

theorem exec_of_err {i : Instr} {s : State} (he : s.err = true) (hi : i ≠ .readStatus) :
    exec i s = answered 0#32 s := by
  cases i with
  | nop => exact exec_nop s
  | init => exact exec_init_of_err he
  | absorbByte => rw [exec, execAbsorbByte, unlessErr_of_err he]; rfl
  | finalize => rw [exec, execFinalize, unlessErr_of_err he]; rfl
  | readDigestByte | readDigestWord => exact digestRead_of_err _ he
  | readStatus => exact absurd rfl hi

/-- The one command obeyed is READ_STATUS, and only its own word decodes to it. -/
theorem runCommand_of_err {w : Word} {s : State} (he : s.err = true) (hne : w ≠ 0x60000000#32) :
    runCommand w s = answered 0#32 s := by
  rw [runCommand]
  cases hw : decode w with
  | cmd i =>
    refine exec_of_err he ?_
    rintro rfl
    exact hne (eq_encode_of_decode hw)
  | illegal why => exact unlessErr_of_err he _

theorem runCommand_readStatusWord (s : State) :
    runCommand 0x60000000#32 s = answered (BitVec.ofNat 32 (statusNumber s)) s := by
  have hw : decode 0x60000000#32 = .cmd .readStatus := by decide
  rw [runCommand, hw]
  exact exec_readStatus s

/-- Settles O37: READ_STATUS's word is answered from every state, every other word is ignored, and a reset clears ERR. -/
theorem faultedCoreObeysOnlyNopAndStatus : Obligations.FaultedCoreObeysOnlyNopAndStatus := by
  intro s rest he
  refine ⟨fun hx => ?status, fun w hx hne => ?ignored, fun hx => ⟨_, step_of_reset hx, hardwareReset_err _⟩⟩
  case status => rw [step_of_command hx]; exact runCommand_readStatusWord _
  case ignored => rw [step_of_command hx]; exact runCommand_of_err he hne

/-! ## The conditions of a fault, with ERR = 0 -/

theorem runCommand_of_illegalOpcode {w : Word} {s : State} (he : s.err = false) (hop : 7 ≤ w.toNat / 2 ^ 28) :
    runCommand w s = latched .illegalOpcode s := by
  rw [runCommand, decode_eq_illegalOpcode_iff.2 hop]
  exact unlessErr_of_noErr he _

/-- A word that passes both checks of the decoder is the command its number selects (R95). -/
theorem exists_command_of_wellFormed {w : Word} (hop : w.toNat / 2 ^ 28 < 7) (hclear : ¬ reservedBitSet w) :
    ∃ i, decode w = .cmd i ∧ NumberSelects w i := by
  cases hw : decode w with
  | cmd i => exact ⟨i, rfl, (decode_eq_cmd_iff_numberSelects.1 hw).1⟩
  | illegal why =>
    cases why with
    | illegalOpcode => exact absurd (decode_eq_illegalOpcode_iff.1 hw) (Nat.not_le.2 hop)
    | reservedField => exact absurd ((reservedBitSet_iff hop).2 (decode_eq_reservedField_iff.1 hw).2) hclear

/-- The command is legal in one phase only, and the core is in another (R303). -/
def OutsidePhase (i : Instr) (p : Phase) : Prop :=
  ((i = .finalize ∨ ∃ data, i = .absorbByte data) ∧ p ≠ .absorb) ∨
    (((∃ idx, i = .readDigestByte idx) ∨ ∃ widx, i = .readDigestWord widx) ∧ p ≠ .done)

theorem outsidePhase_iff {w : Word} {i : Instr} (h : NumberSelects w i) (p : Phase) :
    OutsidePhase i p ↔ ((w.toNat / 2 ^ 28 = 2 ∨ w.toNat / 2 ^ 28 = 3) ∧ p ≠ .absorb) ∨
      ((w.toNat / 2 ^ 28 = 4 ∨ w.toNat / 2 ^ 28 = 5) ∧ p ≠ .done) := by
  cases i with
  | absorbByte | readDigestByte | readDigestWord => obtain ⟨hop, -⟩ := h; rw [hop]; simp [OutsidePhase]
  | nop | init | finalize | readStatus => rw [NumberSelects] at h; rw [h]; simp [OutsidePhase]

theorem exists_absorbByte_iff {w : Word} {i : Instr} (h : NumberSelects w i) :
    (∃ data, i = .absorbByte data) ↔ w.toNat / 2 ^ 28 = 2 := by
  cases i with
  | absorbByte | readDigestByte | readDigestWord => obtain ⟨hop, -⟩ := h; rw [hop]; simp
  | nop | init | finalize | readStatus => rw [NumberSelects] at h; rw [h]; simp

theorem exec_finalize_of_wrongPhase {s : State} (he : s.err = false) (hp : s.phase ≠ .absorb) :
    exec .finalize s = latched .wrongPhase s := by
  rw [exec, execFinalize, unlessErr_of_noErr he, inPhase_of_ne hp]
  rfl

theorem exec_of_outsidePhase {i : Instr} {s : State} (he : s.err = false) (h : OutsidePhase i s.phase) :
    exec i s = latched .wrongPhase s := by
  obtain ⟨rfl | ⟨_, rfl⟩, hp⟩ | ⟨⟨_, rfl⟩ | ⟨_, rfl⟩, hp⟩ := h
  · exact exec_finalize_of_wrongPhase he hp
  · exact exec_absorbByte_of_wrongPhase he hp
  · exact digestRead_of_wrongPhase _ he hp
  · exact digestRead_of_wrongPhase _ he hp

/-- The length check comes after the phase check and before any write (R155, R304). -/
theorem exec_absorbByte_of_overflow {data : Byte} {s : State} (he : s.err = false) (hp : s.phase = .absorb)
    (hm : s.msgLen.toNat = maxMsgBytes) : exec (.absorbByte data) s = latched .lengthOverflow s := by
  rw [exec, execAbsorbByte, unlessErr_of_noErr he, inPhase_of_eq hp, if_pos hm]
  rfl

/-! ## A command that meets no condition -/

/-- APPEND leaves ERR and CAUSE as they are. -/
theorem OnlyBlockState.faultFields_eq {s t : State} (h : OnlyBlockState s t) : t.err = s.err ∧ t.cause = s.cause := by
  rw [OnlyBlockState] at h
  rw [h]
  exact ⟨rfl, rfl⟩

/-- In its phase and with room for the byte, no effect of a command touches ERR or CAUSE. -/
theorem CommandEffect.faultFields_eq {i : Instr} {s t : State} (h : CommandEffect i s t)
    (hphase : ¬ OutsidePhase i s.phase) (hroom : ¬ ((∃ data, i = .absorbByte data) ∧ s.msgLen.toNat = maxMsgBytes)) :
    t.err = s.err ∧ t.cause = s.cause := by
  cases h with
  | wrongPhase _ why _ => exact absurd why hphase
  | overflow _ _ full which _ => exact absurd ⟨which, full⟩ hroom
  | answer _ _ _ eq | init _ _ eq => rw [eq]; exact ⟨rfl, rfl⟩
  | absorb _ _ _ _ _ _ appended eq => rw [eq]; exact appended.frame.faultFields_eq
  | finalize _ _ _ _ _ appended eq => rw [eq]; exact appended.frame.faultFields_eq

/-- Settles O36: the decoder's two causes by its outcomes; a command's two by `OutsidePhase` and MSG_LEN; and a command that
meets neither has no effect on ERR and CAUSE. -/
theorem firstFaultInPriorityIsLatched : Obligations.FirstFaultInPriorityIsLatched := by
  intro s w rest hx
  dsimp only
  rw [step_of_command hx]
  refine ⟨fun he hne => runCommand_of_err he hne, fun he => ⟨fun hop => runCommand_of_illegalOpcode he hop,
    fun hop hset => runCommand_of_reservedBitSet he hop hset, fun hop hclear hphase => ?wrongPhase,
    fun hop hclear hphase hfull => ?overflow, fun hop hclear hphase hroom t ht => ?noFault⟩⟩
  all_goals
    obtain ⟨i, hw, hsel⟩ := exists_command_of_wellFormed hop hclear
    rw [← outsidePhase_iff hsel] at hphase
  case wrongPhase =>
    rw [runCommand, hw]
    exact exec_of_outsidePhase he hphase
  case overflow =>
    obtain ⟨data, rfl⟩ := (exists_absorbByte_iff hsel).2 hfull.1
    have hp : s.phase = .absorb := not_not.1 fun hne => hphase (.inl ⟨.inr ⟨data, rfl⟩, hne⟩)
    rw [runCommand, hw]
    exact exec_absorbByte_of_overflow he hp hfull.2
  case noFault =>
    rw [runCommand, hw] at ht
    rw [← exists_absorbByte_iff hsel] at hroom
    obtain ⟨herr, hcause⟩ := (exec_effect ht).faultFields_eq hphase hroom
    exact ⟨herr.trans he, hcause⟩

end Sys2Proof.Machine
end

section
/-! Proofs about hardware reset (70_reset_and_hazards.md R400): what it leaves in the core, that no command clears ERR in its
place (60_exceptions.md R308), and that it reaches one instance of a platform only. -/

namespace Sys2Proof.Machine

/-! ## The core after a reset -/

/-- The core as R400 leaves it: PHASE IDLE, every counted element 0, and no value in H, BUF, W and a..h. -/
def Unstarted (t : State) : Prop :=
  t.phase = .idle ∧ t.err = false ∧ t.cause = .none ∧ t.msgLen = 0#61 ∧ t.bufLen = 0#7 ∧ t.seq = .idle ∧
    t.H = none ∧ (∀ i : Fin 64, t.buf[i] = none) ∧ (∀ i : Fin 64, t.W[i] = none) ∧ t.work = none ∧ statusNumber t = 0

/-- A reset writes constants only, so it does not matter from which state it comes. -/
theorem unstarted_hardwareReset (s : State) : Unstarted (hardwareReset s) :=
  ⟨rfl, rfl, rfl, rfl, rfl, rfl, rfl, fun i => Vector.getElem_replicate i.isLt, fun i => Vector.getElem_replicate i.isLt,
    rfl, rfl⟩

/-- `State.reset` is what a reset makes of itself. -/
theorem unstarted_reset : Unstarted State.reset :=
  unstarted_hardwareReset State.reset

/-! ## ERR under a command -/

/-- With ERR = 1 READ_STATUS answers and every other word is ignored, so ERR stays (R305, R308). -/
theorem runCommand_err_of_err {w : Word} {s t : State} (he : s.err = true) (h : runCommand w s = .next t) :
    t.err = true := by
  by_cases hw : w = 0x60000000#32
  · rw [hw, runCommand_readStatusWord] at h
    cases h
    exact he
  · rw [runCommand_of_err he hw] at h
    cases h
    exact he

/-! ## One instance of a platform -/

/-- The platform goes on as the stepped instance does, and every other instance stays (R72, R314). -/
theorem stepAt_of_step {cfg : Config} {p : Platform cfg} {i : Fin cfg.nInst} {t : State}
    (h : step p.insts[i] = .next t) :
    ∃ q, p.stepAt i = .next q ∧ q.insts[i] = t ∧ ∀ j : Fin cfg.nInst, j ≠ i → q.insts[j] = p.insts[j] := by
  refine ⟨⟨p.insts.set i.val t⟩, ?_, Vector.getElem_set_self i.isLt, fun j hj => ?_⟩
  · rw [Platform.stepAt, h]
  · exact Vector.getElem_set_ne i.isLt j.isLt fun hij => hj (Fin.ext hij.symm)

/-- Settles O41: a step that takes a reset goes on to `hardwareReset`, whatever the state, and on a platform it is the step of
one instance; a command word keeps ERR = 1. -/
theorem resetLeavesTheCoreUnstarted : Obligations.ResetLeavesTheCoreUnstarted := by
  refine ⟨unstarted_reset, fun s rest hx => ⟨_, step_of_reset hx, unstarted_hardwareReset _⟩,
    fun s t w rest hx he h => ?sticky, fun cfg p i rest hx => ?oneInstance⟩
  case sticky =>
    rw [step_of_command hx] at h
    exact runCommand_err_of_err (s := { s with pending := rest }) he h
  case oneInstance =>
    obtain ⟨q, hq, hown, hothers⟩ := stepAt_of_step (step_of_reset hx)
    refine ⟨q, hq, ?_, hothers⟩
    rw [hown]
    exact unstarted_hardwareReset _

end Sys2Proof.Machine
end

section
/-! Proofs about the decoder and the encoder (30_encoding.md R94, R95): the word that encodes a command decodes to it, and the
test vectors' words. -/

namespace Sys2Proof

/-- A command's word passes both checks of the decoder. -/
theorem wordWellFormed_encode (i : Instr) : wordWellFormed (encode i) = true := by
  cases i with
  | nop => exact Laws.OpcodeRow.nop.2.2
  | init => exact Laws.OpcodeRow.init.2.2
  | absorbByte data => exact (Laws.OpcodeRow.absorbByte data).2.2
  | finalize => exact Laws.OpcodeRow.finalize.2.2
  | readDigestByte idx => exact (Laws.OpcodeRow.readDigestByte idx).2.2
  | readDigestWord widx => exact (Laws.OpcodeRow.readDigestWord widx).2.2
  | readStatus => exact Laws.OpcodeRow.readStatus.2.2

theorem reservedClear_encode (i : Instr) : reservedClear (encode i) = true :=
  (Bool.and_eq_true_iff.1 (wordWellFormed_encode i)).2

/-- OP and the operand bits of a command's word are the command's own (R93, R94). -/
theorem numberSelects_encode (i : Instr) : NumberSelects (encode i) i := by
  cases i with
  | absorbByte x | readDigestByte x | readDigestWord x =>
    have := x.isLt
    refine ⟨?_, BitVec.eq_of_toNat_eq ?_⟩ <;> simp only [encode, append_toNat, BitVec.toNat_ofNat] <;> omega
  | nop | init | finalize | readStatus => rw [NumberSelects]; decide

theorem decode_encode (i : Instr) : decode (encode i) = .cmd i :=
  decode_eq_cmd_iff_numberSelects.2 ⟨numberSelects_encode i, reservedClear_encode i⟩

/-- Settles O2: a command's word decodes to it, and no other word does. -/
theorem decodeAndEncodeAgree : Obligations.DecodeAndEncodeAgree := by
  intro w i
  constructor
  · exact eq_encode_of_decode
  · rintro rfl
    exact decode_encode i

/-- Settles O4: each word evaluated. -/
theorem sampleWordsDecode : Obligations.SampleWordsDecode := by
  unfold Obligations.SampleWordsDecode
  decide

end Sys2Proof
end

section
/-! Proofs about the invariant of 10_state.md R46 and R47: reset meets it, every command keeps it, and no run from it stops. -/

namespace Sys2Proof.Machine

/-! ## The state after reset -/

theorem inv_hardwareReset (s : State) : (hardwareReset s).Inv where
  seqIdle := rfl
  causeOfNoErr _ := rfl
  causeOfErr := nofun
  idleEmpty _ := ⟨rfl, rfl⟩
  absorbCount := nofun
  doneEmpty := nofun
  hashWritten h := absurd rfl h
  bufWritten _ h := absurd h (Nat.not_lt_zero _)

/-- Settles O42: it is what a hardware reset leaves. -/
theorem resetMeetsTheInvariant : Obligations.ResetMeetsTheInvariant := fun inputs =>
  inv_hardwareReset { State.reset with pending := inputs }

/-! ## What keeps it -/

/-- The ports are not in the invariant. -/
theorem State.Inv.withPorts {s : State} (h : s.Inv) (inputs : List HostInput) (answers : List Word) :
    { s with pending := inputs, responses := answers }.Inv :=
  ⟨h.seqIdle, h.causeOfNoErr, h.causeOfErr, h.idleEmpty, h.absorbCount, h.doneEmpty, h.hashWritten, h.bufWritten⟩

theorem State.Inv.respond {s : State} (h : s.Inv) (v : Word) : (s.respond v).Inv :=
  h.withPorts s.pending (v :: s.responses)

/-- The fault path latches ERR and CAUSE together (R47 (iv), (v)). -/
theorem State.Inv.latch {s : State} (h : s.Inv) {c : Cause} (hc : c ≠ .none) :
    ({ s with err := true, cause := c }.respond 0#32).Inv :=
  { h.respond 0#32 with causeOfNoErr := nofun, causeOfErr := fun _ => hc }

theorem State.Inv.startDigest {s : State} (h : s.Inv) : (startDigest s).Inv :=
  { h with
    idleEmpty := nofun
    absorbCount := fun _ => rfl
    doneEmpty := nofun
    hashWritten := fun _ => rfl
    bufWritten := fun _ hi => absurd hi (Nat.not_lt_zero _) }

/-- MSG_LEN and BUF_LEN count on together: 64 divides 2^61 (R47 (i)). -/
theorem msgLen_succ_mod (n : BitVec 61) : (n + 1#61).toNat % 64 = (n.toNat % 64 + 1) % 64 := by
  simp only [BitVec.toNat_add, BitVec.toNat_ofNat]
  omega

theorem State.Inv.absorb {s u : State} {data : Byte} (h : s.Inv) (hp : s.phase = .absorb)
    (e : AppendEffect data { s with msgLen := s.msgLen + 1#61 } u) : u.Inv := by
  have hphase : u.phase = .absorb := e.frame.phase_eq.trans hp
  obtain ⟨herr, hcause⟩ := e.frame.faultFields_eq
  have hmsg : u.msgLen = s.msgLen + 1#61 := by rw [e.frame]
  refine ⟨e.appends.seq h.seqIdle, ?_, ?_, ?_, ?_, ?_, fun _ => ?_, e.appends.written h.bufWritten⟩
  · rw [herr, hcause]; exact h.causeOfNoErr
  · rw [herr, hcause]; exact h.causeOfErr
  · rw [hphase]; exact nofun
  · intro _; rw [e.bufLen, hmsg, msgLen_succ_mod, ← h.absorbCount hp]
  · rw [hphase]; exact nofun
  · exact e.appends.H (h.hashWritten (by rw [hp]; exact nofun))

theorem State.Inv.finalize {s u : State} {lb : BitVec 64} (h : s.Inv) (hp : s.phase = .absorb)
    (e : AppendsEffect (finalBytes s.bufLen.toNat lb) s u) : { u with phase := .done }.Inv := by
  obtain ⟨herr, hcause⟩ := e.frame.faultFields_eq
  have hempty : u.bufLen.toNat = 0 := by
    rw [e.bufLen (.inl (List.cons_ne_nil _ _)), finalBytes_fills]
  refine ⟨e.seq h.seqIdle, ?_, ?_, nofun, nofun, fun _ => BitVec.eq_of_toNat_eq hempty, fun _ => ?_, e.written h.bufWritten⟩
  · simpa only [herr, hcause] using h.causeOfNoErr
  · simpa only [herr, hcause] using h.causeOfErr
  · exact e.H (h.hashWritten (by rw [hp]; exact nofun))

theorem CommandEffect.inv {i : Instr} {s t : State} (h : CommandEffect i s t) (hs : s.Inv) : t.Inv := by
  cases h with
  | answer v _ _ eq => rw [eq]; exact hs.respond v
  | wrongPhase _ _ eq | overflow _ _ _ _ eq => rw [eq]; exact hs.latch nofun
  | init _ _ eq => rw [eq]; exact hs.startDigest.respond 0#32
  | absorb _ _ _ hp _ _ appended eq => rw [eq]; exact (hs.absorb hp appended).respond 0#32
  | finalize _ _ hp _ _ appended eq => rw [eq]; exact (hs.finalize hp appended).respond 0#32

theorem illegalCommand_inv {why : Illegal} {s t : State} (hs : s.Inv) (h : illegalCommand why s = .next t) : t.Inv := by
  obtain ⟨-, rfl⟩ | ⟨-, rfl⟩ := illegalCommand_eq_next.1 h
  · exact hs.respond 0#32
  · exact hs.latch (by cases why <;> exact nofun)

theorem runCommand_inv {w : Word} {s t : State} (hs : s.Inv) (h : runCommand w s = .next t) : t.Inv := by
  obtain ⟨i, -, e⟩ | ⟨why, -, e⟩ := runCommand_effect h
  · exact e.inv hs
  · exact illegalCommand_inv hs e

/-- Settles O43: with nothing presented the state stays; a reset leaves the reset state; a command word has one of the effects
of `CommandEffect`, and each keeps the invariant. -/
theorem stepKeepsTheInvariant : Obligations.StepKeepsTheInvariant := by
  intro s t hs h
  match hx : s.pending with
  | [] => rw [step_of_nothing hx] at h; cases h; exact hs
  | .reset :: rest => rw [step_of_reset hx] at h; cases h; exact inv_hardwareReset _
  | .command w :: rest =>
    rw [step_of_command hx] at h
    exact runCommand_inv (hs.withPorts rest s.responses) h

/-! ## Progress -/

/-- A state whose BUF holds `tail` below BUF_LEN, and whose H holds `h`, streams from `h` (R152, R153). -/
theorem streamed_of_tail {s : State} {h : Vector Word 8} {tail : List Byte} (hlen : tail.length = s.bufLen.toNat)
    (hlt : s.bufLen.toNat < 64) (htail : ∀ i : Fin 64, i.val < tail.length → s.buf[i] = some (tail.getD i.val 0#8))
    (hH : s.H = some h) : Streamed h tail s := by
  have hmod : tail.length % 64 = tail.length := Nat.mod_eq_of_lt (by omega)
  have hdiv : tail.length / 64 = 0 := Nat.div_eq_of_lt (by omega)
  refine ⟨by rw [hmod, hlen], fun i hi => ?_, by rw [chunk_of_short (by omega), hH]; rfl⟩
  rw [hdiv, Nat.mul_zero, Nat.zero_add]
  exact htail i (by rwa [hmod] at hi)

/-- The first `n` bytes of BUF, where they are written. -/
def heldBytes (s : State) : List Byte := (s.buf.toList.take s.bufLen.toNat).map (·.getD 0#8)

/-- A state with every element that a block reads written streams from its H (R46). -/
theorem streamed_of_written {s : State} {h : Vector Word 8} (hlt : s.bufLen.toNat < 64) (hH : s.H = some h)
    (hw : ∀ i : Fin 64, i.val < s.bufLen.toNat → s.buf[i].isSome) : Streamed h (heldBytes s) s := by
  have hlen : (heldBytes s).length = s.bufLen.toNat := by
    rw [heldBytes, List.length_map, List.length_take, Vector.length_toList, Nat.min_eq_left hlt.le]
  refine streamed_of_tail hlen hlt (fun i hi => ?_) hH
  rw [hlen] at hi
  obtain ⟨b, hb⟩ := Option.isSome_iff_exists.1 (hw i hi)
  have hget : s.buf.toList[i.val]? = some (some b) := by
    rw [← hb]; simp
  rw [hb, heldBytes, List.getD_eq_getElem?_getD, List.getElem?_map, List.getElem?_take_of_lt hi, hget]
  rfl

/-- Between commands in ABSORB the core streams from its H (R46, R47). -/
theorem State.Inv.streamed {s : State} (hs : s.Inv) (hp : s.phase = .absorb) :
    s.bufLen.toNat < 64 ∧ ∃ h, Streamed h (heldBytes s) s := by
  have hlt : s.bufLen.toNat < 64 := by
    rw [hs.absorbCount hp]
    exact Nat.mod_lt _ (by decide)
  obtain ⟨h, hH⟩ := Option.isSome_iff_exists.1 (hs.hashWritten (by rw [hp]; exact nofun))
  exact ⟨hlt, h, streamed_of_written hlt hH hs.bufWritten⟩

theorem exec_absorbByte_goes_on {s : State} (hs : s.Inv) (data : Byte) : ∃ t, exec (.absorbByte data) s = .next t := by
  cases he : s.err with
  | true => exact ⟨_, exec_of_err he nofun⟩
  | false =>
    by_cases hp : s.phase = .absorb
    · by_cases hm : s.msgLen.toNat = maxMsgBytes
      · exact ⟨_, exec_absorbByte_of_overflow he hp hm⟩
      · obtain ⟨-, h, hst⟩ := hs.streamed hp
        have hst' : Streamed h (heldBytes s) { s with msgLen := s.msgLen + 1#61 } := ⟨hst.bufLen, hst.tail, hst.hash⟩
        obtain ⟨u, hu, -⟩ := hst'.appendByte data
        exact ⟨u.respond 0#32, by rw [exec, execAbsorbByte_of_accepted he hp hm, hu, andThen_next]⟩
    · exact ⟨_, exec_absorbByte_of_wrongPhase he hp⟩

theorem exec_finalize_goes_on {s : State} (hs : s.Inv) : ∃ t, exec .finalize s = .next t := by
  cases he : s.err with
  | true => exact ⟨_, exec_of_err he nofun⟩
  | false =>
    by_cases hp : s.phase = .absorb
    · obtain ⟨hlt, h, hst⟩ := hs.streamed hp
      obtain ⟨u, hu, -⟩ := hst.forEach_appendByte (finalBytes s.bufLen.toNat (lengthBits s.msgLen))
      exact ⟨_, by rw [exec, execFinalize_of_accepted he hp hlt, hu, andThen_next]⟩
    · exact ⟨_, exec_finalize_of_wrongPhase he hp⟩

theorem digestRead_goes_on {s : State} (hs : s.Inv) (answer : Vector Word 8 → Word) :
    ∃ t, digestRead answer s = .next t := by
  cases he : s.err with
  | true => exact ⟨_, digestRead_of_err answer he⟩
  | false =>
    by_cases hp : s.phase = .done
    · obtain ⟨h, hH⟩ := Option.isSome_iff_exists.1 (hs.hashWritten (by rw [hp]; exact nofun))
      exact ⟨_, digestRead_of_written answer he hp hH⟩
    · exact ⟨_, digestRead_of_wrongPhase answer he hp⟩

theorem exec_goes_on {s : State} (hs : s.Inv) (i : Instr) : ∃ t, exec i s = .next t := by
  cases i with
  | nop => exact ⟨_, exec_nop s⟩
  | init =>
    cases he : s.err with
    | true => exact ⟨_, exec_init_of_err he⟩
    | false => exact ⟨_, exec_init_of_noErr he⟩
  | absorbByte data => exact exec_absorbByte_goes_on hs data
  | finalize => exact exec_finalize_goes_on hs
  | readDigestByte | readDigestWord => exact digestRead_goes_on hs _
  | readStatus => exact ⟨_, exec_readStatus s⟩

theorem illegalCommand_of_noErr {why : Illegal} {s : State} (he : s.err = false) :
    illegalCommand why s = latched (illegalCause why) s :=
  unlessErr_of_noErr he _

theorem illegalCommand_of_err {why : Illegal} {s : State} (he : s.err = true) :
    illegalCommand why s = answered 0#32 s :=
  unlessErr_of_err he _

theorem illegalCommand_goes_on (why : Illegal) (s : State) : ∃ t, illegalCommand why s = .next t := by
  cases he : s.err with
  | true => exact ⟨_, illegalCommand_of_err he⟩
  | false => exact ⟨_, illegalCommand_of_noErr he⟩

theorem step_goes_on {s : State} (hs : s.Inv) : ∃ t, step s = .next t := by
  match hx : s.pending with
  | [] => exact ⟨_, step_of_nothing hx⟩
  | .reset :: rest => exact ⟨_, step_of_reset hx⟩
  | .command w :: rest =>
    rw [step_of_command hx, runCommand]
    cases decode w with
    | cmd i => exact exec_goes_on (hs.withPorts rest s.responses) i
    | illegal why => exact illegalCommand_goes_on why _

/-- Settles O44: by induction on the number of steps; a step from an invariant state goes on, to an invariant state. -/
theorem runsFromTheInvariantNeverStop : Obligations.RunsFromTheInvariantNeverStop := by
  intro s hs n
  induction n generalizing s with
  | zero => exact ⟨s, rfl⟩
  | succ n ih =>
    obtain ⟨u, hu⟩ := step_goes_on hs
    rw [run_of_step (M := Sys2Proof.core) hu]
    exact ih u (stepKeepsTheInvariant s u hs hu)

end Sys2Proof.Machine
end

section
/-! Proofs about digest reads in DONE (44_output_serializer.md R233, R237): the two widths agree, and a run of reads leaves the
core as it was. -/

namespace Sys2Proof.Machine

/-! ## The two read widths -/

/-- Digest byte 4i + j is byte j, from the top, of word i (R233, R234). -/
theorem zext32_digestByte_toNat (h : Vector Word 8) (i : Fin 8) {j : Nat} (hj : j < 4) :
    (zext32 (digestByte h (BitVec.ofNat 5 (4 * i.val + j)))).toNat = h[i].toNat / 2 ^ (24 - 8 * j) % 2 ^ 8 := by
  have hword : (4 * i.val + j) % 2 ^ 5 / 4 = i.val := by omega
  have hbyte : (4 * i.val + j) % 2 ^ 5 % 4 = j := by omega
  rw [zext32_digestByte, BitVec.toNat_ofNat]
  simp only [BitVec.toNat_ofNat, hword, hbyte]
  exact Nat.mod_eq_of_lt ((Nat.mod_lt _ (by decide)).trans (by decide))

theorem digestWord_ofNat (h : Vector Word 8) (i : Fin 8) : digestWord h (BitVec.ofNat 3 i.val) = h[i] := by
  have hi : i.val % 2 ^ 3 = i.val := Nat.mod_eq_of_lt i.isLt
  simp only [digestWord, BitVec.toNat_ofNat, hi]
  rfl

/-- Settles O12: each read answers from H, and a word is its four bytes from the top. -/
theorem readWidthsAgree : Obligations.ReadWidthsAgree := by
  intro s i he hp hH
  obtain ⟨h, hH⟩ := Option.isSome_iff_exists.1 hH
  have hbyte : ∀ j : Nat, _ := fun j => digestRead_of_written
    (fun h => zext32 (digestByte h (BitVec.ofNat 5 (4 * i.val + j)))) he hp hH
  refine ⟨_, _, _, _, _, digestRead_of_written _ he hp hH, hbyte 0, hbyte 1, hbyte 2, hbyte 3, ?_⟩
  have hlt := h[i].isLt
  simp (disch := decide) only [zext32_digestByte_toNat, digestWord_ofNat]
  omega

/-! ## Runs of reads -/

/-- In DONE with ERR = 0 and H written, each of the four reading commands answers and changes nothing. -/
theorem exec_of_readsOnly {i : Instr} {s : State} (hi : Instr.readsOnly i) (he : s.err = false) (hp : s.phase = .done)
    (hH : s.H.isSome) : ∃ v, exec i s = answered v s := by
  obtain ⟨h, hH⟩ := Option.isSome_iff_exists.1 hH
  obtain rfl | rfl | ⟨idx, rfl⟩ | ⟨widx, rfl⟩ := hi
  · exact ⟨_, exec_nop s⟩
  · exact ⟨_, exec_readStatus s⟩
  · exact ⟨_, digestRead_of_written _ he hp hH⟩
  · exact ⟨_, digestRead_of_written _ he hp hH⟩

/-- Settles O13: by induction on the list; each read leaves a state that differs in its responses only. -/
theorem readsAreRepeatable : Obligations.ReadsAreRepeatable := by
  intro cs
  induction cs with
  | nil => exact fun s _ _ _ _ => ⟨[], rfl, rfl⟩
  | cons c cs ih =>
    intro s he hp hH hcs
    obtain ⟨hc, hcs⟩ := List.forall_mem_cons.1 hcs
    obtain ⟨v, hv⟩ := exec_of_readsOnly hc he hp hH
    obtain ⟨vs, hlen, hvs⟩ := ih { s with responses := v :: s.responses } he hp hH hcs
    refine ⟨vs ++ [v], by simp [hlen], ?_⟩
    rw [forEach_cons, hv, answered, andThen_next, hvs, List.append_assoc, List.singleton_append]

end Sys2Proof.Machine
end

section
/-! Proofs about APPEND in the commands ABSORB_BYTE and FINALIZE (41_chunker.md R152, R155; 40_preprocessor.md R130): the whole
next state, where every element they read is written. -/

namespace Sys2Proof.Machine

/-! ## ABSORB_BYTE -/

/-- ABSORB_BYTE past its checks, below 2^61 - 1 bytes (R155). -/
theorem exec_absorbByte_of_room {s : State} {data : Byte} (he : s.err = false) (hp : s.phase = .absorb)
    (hm : s.msgLen.toNat < 2 ^ 61 - 1) :
    exec (.absorbByte data) s =
      andThen (appendByte data { s with msgLen := s.msgLen + 1#61 }) fun t => .next (t.respond 0#32) :=
  execAbsorbByte_of_accepted he hp (Nat.ne_of_lt hm)

/-- Settles O14: past the checks the byte is stored and BUF_LEN stays below 64. -/
theorem absorbByteBuffersTheByte : Obligations.AbsorbByteBuffersTheByte := by
  intro s data he hp hm hlt
  rw [exec_absorbByte_of_room he hp hm, appendByte_of_lt (s := { s with msgLen := s.msgLen + 1#61 }) hlt]
  rfl

theorem set_last_eq_map {buf : Vector (Option Byte) 64} {B : Vector Byte 64} {n : Nat} (hn : n < 64) (h63 : n = 63)
    (hb : ∀ i : Fin 64, i.val < 63 → buf[i] = some B[i]) : buf.set n (some B[63]) hn = B.map some := by
  subst h63
  refine Vector.ext fun i hi => ?_
  rw [Vector.getElem_map]
  by_cases he : 63 = i
  · subst he; rw [Vector.getElem_set_self]
  · rw [Vector.getElem_set_ne _ _ he]
    exact hb ⟨i, hi⟩ (by omega : i < 63)

/-- Settles O15: the byte completes the block, which PROCESS_BLOCK runs on written elements. -/
theorem absorbByteProcessesTheFullBlock : Obligations.AbsorbByteProcessesTheFullBlock := by
  intro s data B h he hp hm h63 hb hdata hH
  subst hdata
  rw [exec_absorbByte_of_room he hp hm, appendByte_of_full (s := { s with msgLen := s.msgLen + 1#61 }) h63,
    set_last_eq_map (by omega) h63 hb]
  rw [stages_of_written (s := { s with
    msgLen := s.msgLen + 1#61, buf := B.map some, bufLen := s.bufLen + 1#7 }) rfl hH]
  rfl

/-! ## FINALIZE -/

theorem lengthBits_toNat (n : BitVec 61) : (lengthBits n).toNat = 8 * n.toNat := by
  rw [lengthBits, append_toNat, BitVec.toNat_ofNat]
  omega

/-- The length field byte by byte, most significant first (R126). -/
theorem bytesBE64_eq_map (v : BitVec 64) :
    bytesBE64 v = (List.range 8).map fun j => BitVec.ofNat 8 (v.toNat / 2 ^ (56 - 8 * j)) := by
  simp only [← Nat.shiftRight_eq_div_pow]
  rfl

theorem finalBytes_eq {n : Nat} (hn : n < 64) (m : BitVec 61) : finalBytes n (lengthBits m) =
    [0x80#8] ++ List.replicate ((119 - n) % 64) 0x00#8 ++
      (List.range 8).map fun j => BitVec.ofNat 8 (8 * m.toNat / 2 ^ (56 - 8 * j)) := by
  have hz : padByteCount n = (119 - n) % 64 := by rw [padByteCount]; omega
  rw [finalBytes, bytesBE64_eq_map, lengthBits_toNat, hz]
  rfl

/-- A run of APPENDs on a stream whose last byte ends a block: the exact next state. -/
theorem Streamed.forEach_appendByte_full {H₀ : Vector Word 8} {Q : List Byte} {s : State} (h : Streamed H₀ Q s)
    (bs : List Byte) (b : Byte) (hlen : (Q ++ bs).length % 64 = 63) :
    let last := blockAt (Q ++ bs ++ [b]) ((Q ++ bs).length / 64)
    forEach Machine.appendByte (bs ++ [b]) s =
      .next { s with
        buf := last.map some
        bufLen := 0#7
        W := (expand last).map some
        work := some (rounds (expand last) (Working.ofHash (chain H₀ (chunk (Q ++ bs)))))
        H := some (chain H₀ (chunk (Q ++ bs ++ [b])))
        seq := .idle } := by
  obtain ⟨u, hu, hst⟩ := h.forEach_appendByte bs
  have hframe : OnlyBlockState s u := (forEach_appendByte_effect hu).frame
  rw [forEach_append, hu, andThen_next, forEach_cons, hst.appendByte_full b hlen, andThen_next, forEach_nil, hframe]

theorem chunk_length (Q : List Byte) : (chunk Q).length = Q.length / 64 := by
  rw [chunk, List.length_map, List.length_range]

/-- Settles O16: FINALIZE is one run of APPENDs on the stream of the tail, and its last byte ends a block. -/
theorem finalizeProcessesThePaddedTail : Obligations.FinalizeProcessesThePaddedTail := by
  intro s tail h he hp hlen hlt htail hH Q
  have hst : Streamed h tail s := streamed_of_tail hlen hlt htail hH
  obtain ⟨bs, b, hbs⟩ := (finalBytes s.bufLen.toNat (lengthBits s.msgLen)).eq_nil_or_concat.resolve_left
    (List.cons_ne_nil _ _)
  rw [List.concat_eq_append] at hbs
  have hQ : tail ++ bs ++ [b] = Q := by
    rw [List.append_assoc, ← hbs, finalBytes_eq hlt, ← hlen]
    simp only [Q, List.append_assoc]
  have hQlen : Q.length = tail.length + 9 + (119 - tail.length) % 64 := by
    simp only [Q, List.length_append, List.length_singleton, List.length_replicate, List.length_map, List.length_range]
    omega
  have hlen' : (tail ++ bs).length + 1 = Q.length := by rw [← hQ, List.length_append (bs := [b])]; rfl
  have hfull : (tail ++ bs).length % 64 = 63 := by omega
  refine ⟨chunk (tail ++ bs), blockAt Q ((tail ++ bs).length / 64), ?_, ?_, ?_, ?_⟩
  · rw [← hQ, chunk_append_singleton_of_full b hfull]
  · rw [chunk_length]; omega
  · rw [chunk_length, ← hlen]; split <;> omega
  · have hrun := hst.forEach_appendByte_full bs b hfull
    rw [chunk_append_singleton_of_full b hfull, hQ] at hrun
    rw [exec, execFinalize_of_accepted he hp hlt, hbs, hrun, andThen_next]
    rfl

end Sys2Proof.Machine
end

section
/-! Proofs about reads of elements that hold no value (10_state.md R30, R46; 93_implementation_defined.md U9): which element stops
each reader, and that a block with one missing stops the model. -/

namespace Sys2Proof.Machine

/-! ## Each reader -/

section
variable {s : State} {n : Nat} {hn : n < 64}

theorem readBuf_of_written {k : Byte → Result} {b : Byte} (h : s.buf[n] = some b) : readBuf ⟨n, hn⟩ s k = k b := by
  rw [readBuf, Fin.getElem_fin, h, readElement_some]

theorem readBuf_of_unwritten {k : Byte → Result} (h : s.buf[n] = none) :
    readBuf ⟨n, hn⟩ s k = .fault (.unwritten (.buf ⟨n, hn⟩)) := by
  rw [readBuf, Fin.getElem_fin, h, readElement_none]

theorem readW_of_written {k : Word → Result} {w : Word} (h : s.W[n] = some w) : readW ⟨n, hn⟩ s k = k w := by
  rw [readW, Fin.getElem_fin, h, readElement_some]

theorem readW_of_unwritten {k : Word → Result} (h : s.W[n] = none) :
    readW ⟨n, hn⟩ s k = .fault (.unwritten (.schedule ⟨n, hn⟩)) := by
  rw [readW, Fin.getElem_fin, h, readElement_none]

end

/-- The first unwritten byte of the four that LOAD_SCHEDULE reads for W[t] stops it (R171). -/
theorem loadWord_of_unwritten {s : State} {t : Fin 16} {j : Fin 4}
    (hbefore : ∀ i : Fin 4, i < j → s.buf[4 * t.val + i.val].isSome) (hj : s.buf[4 * t.val + j.val] = none) :
    loadWord t s = .fault (.unwritten (.buf ⟨4 * t.val + j.val, by omega⟩)) := by
  simp only [Option.isSome_iff_exists] at hbefore
  rw [loadWord]
  match j, hbefore, hj with
  | 0, _, hj => exact readBuf_of_unwritten hj
  | 1, hbefore, hj =>
    obtain ⟨b0, h0⟩ := hbefore 0 (by decide)
    exact (readBuf_of_written h0).trans (readBuf_of_unwritten hj)
  | 2, hbefore, hj =>
    obtain ⟨b0, h0⟩ := hbefore 0 (by decide)
    obtain ⟨b1, h1⟩ := hbefore 1 (by decide)
    exact (readBuf_of_written h0).trans ((readBuf_of_written h1).trans (readBuf_of_unwritten hj))
  | 3, hbefore, hj =>
    obtain ⟨b0, h0⟩ := hbefore 0 (by decide)
    obtain ⟨b1, h1⟩ := hbefore 1 (by decide)
    obtain ⟨b2, h2⟩ := hbefore 2 (by decide)
    exact (readBuf_of_written h0).trans ((readBuf_of_written h1).trans ((readBuf_of_written h2).trans
      (readBuf_of_unwritten hj)))

/-- The first unwritten schedule word of the four that EXPAND_STEP reads stops it (R173). -/
theorem expandStep_of_unwritten (k : Fin 48) (s : State) :
    (s.W[k.val] = none → expandStep k s = .fault (.unwritten (.schedule ⟨k.val, by omega⟩))) ∧
    (s.W[k.val].isSome →
      (s.W[k.val + 1] = none → expandStep k s = .fault (.unwritten (.schedule ⟨k.val + 1, by omega⟩))) ∧
      (s.W[k.val + 1].isSome →
        (s.W[k.val + 9] = none → expandStep k s = .fault (.unwritten (.schedule ⟨k.val + 9, by omega⟩))) ∧
        (s.W[k.val + 9].isSome → s.W[k.val + 14] = none →
          expandStep k s = .fault (.unwritten (.schedule ⟨k.val + 14, by omega⟩))))) := by
  simp only [Option.isSome_iff_exists]
  rw [expandStep]
  refine ⟨fun h16 => readW_of_unwritten h16, ?_⟩
  rintro ⟨w16, h16⟩
  rw [readW_of_written h16]
  refine ⟨fun h15 => readW_of_unwritten h15, ?_⟩
  rintro ⟨w15, h15⟩
  rw [readW_of_written h15]
  refine ⟨fun h7 => readW_of_unwritten h7, ?_⟩
  rintro ⟨w7, h7⟩ h2
  rw [readW_of_written h7, readW_of_unwritten h2]

theorem readHash_of_unwritten {s : State} {k : Vector Word 8 → Result} (h : s.H = none) :
    readHash s k = .fault (.unwritten .hashState) := by
  rw [readHash, h, readElement_none]

theorem readWorking_of_unwritten {s : State} {k : Working → Result} (h : s.work = none) :
    readWorking s k = .fault (.unwritten .working) := by
  rw [readWorking, h, readElement_none]

/-- The digest reads pass their checks before they read H (R234, R235). -/
theorem digestRead_of_unwritten (answer : Vector Word 8 → Word) {s : State} (he : s.err = false) (hp : s.phase = .done)
    (hH : s.H = none) : digestRead answer s = .fault (.unwritten .hashState) := by
  rw [digestRead, unlessErr_of_noErr he, inPhase_of_eq hp, readHash_of_unwritten hH]

/-- Settles O18: each reader stops at its first unwritten element; a ROUND reads a..h before W[t], and a FOLD H before a..h. -/
theorem unwrittenReadsAreModelFaults : Obligations.UnwrittenReadsAreModelFaults := by
  intro s
  refine ⟨fun t j hbefore hj => loadWord_of_unwritten hbefore hj, fun k => expandStep_of_unwritten k s,
    fun t hv => readWorking_of_unwritten hv, fun t hv ht => ?round, fun hH hv => ?fold, fun hH => ?hash⟩
  case round =>
    obtain ⟨v, hv⟩ := Option.isSome_iff_exists.1 hv
    rw [roundStep, readWorking, hv, readElement_some]
    exact readW_of_unwritten ht
  case fold =>
    obtain ⟨H, hH⟩ := Option.isSome_iff_exists.1 hH
    rw [foldStep, readHash, hH, readElement_some]
    exact readWorking_of_unwritten hv
  case hash =>
    exact ⟨readHash_of_unwritten hH, readHash_of_unwritten hH, fun he hp =>
      ⟨fun _ => digestRead_of_unwritten _ he hp hH, fun _ => digestRead_of_unwritten _ he hp hH⟩⟩

/-! ## PROCESS_BLOCK -/

/-- The outcome is a next state, or the stop of a read of an unwritten element. -/
def StopsUnwritten (r : Result) : Prop := (∃ t, r = .next t) ∨ ∃ e, r = .fault (.unwritten e)

theorem stopsUnwritten_next (s : State) : StopsUnwritten (.next s) := .inl ⟨s, rfl⟩

theorem stopsUnwritten_andThen {r : Result} {f : State → Result} (hr : StopsUnwritten r)
    (hf : ∀ t, StopsUnwritten (f t)) : StopsUnwritten (andThen r f) := by
  obtain ⟨t, rfl⟩ | ⟨e, rfl⟩ := hr
  · exact hf t
  · exact .inr ⟨e, rfl⟩

theorem stopsUnwritten_forEach {α : Type} {f : α → State → Result} (hf : ∀ x s, StopsUnwritten (f x s)) (xs : List α)
    (s : State) : StopsUnwritten (forEach f xs s) := by
  induction xs generalizing s with
  | nil => exact stopsUnwritten_next s
  | cons x xs ih => exact stopsUnwritten_andThen (hf x s) ih

theorem stopsUnwritten_readElement {α : Type} {e : Element} {o : Option α} {k : α → Result}
    (hk : ∀ v, StopsUnwritten (k v)) : StopsUnwritten (readElement e o k) := by
  cases o with
  | none => exact .inr ⟨e, rfl⟩
  | some v => exact hk v

theorem stopsUnwritten_microOp (p : Seq) (s : State) : StopsUnwritten (microOp p s) := by
  cases p with
  | idle => exact stopsUnwritten_next s
  | load =>
    refine stopsUnwritten_forEach (fun t s => ?_) _ s
    iterate 4 refine stopsUnwritten_readElement fun _ => ?_
    exact stopsUnwritten_next _
  | expand k =>
    iterate 4 refine stopsUnwritten_readElement fun _ => ?_
    exact stopsUnwritten_next _
  | initWorking => exact stopsUnwritten_readElement fun _ => stopsUnwritten_next _
  | round t | fold =>
    exact stopsUnwritten_readElement fun _ => stopsUnwritten_readElement fun _ => stopsUnwritten_next _

/-- PROCESS_BLOCK stops at unwritten elements only. -/
theorem stopsUnwritten_processBlock (s : State) : StopsUnwritten (processBlock s) :=
  stopsUnwritten_forEach (fun p _ => stopsUnwritten_andThen (stopsUnwritten_microOp p _) fun _ => stopsUnwritten_next _) _ _

theorem buf_written_of_loadWord {t : Fin 16} {s u : State} (h : loadWord t s = .next u) (j : Fin 4) :
    s.buf[4 * t.val + j.val].isSome := by
  simp only [loadWord, readBuf, readElement_eq_next] at h
  obtain ⟨b0, h0, b1, h1, b2, h2, b3, h3, -⟩ := h
  match j with
  | 0 => exact Option.isSome_of_eq_some h0
  | 1 => exact Option.isSome_of_eq_some h1
  | 2 => exact Option.isSome_of_eq_some h2
  | 3 => exact Option.isSome_of_eq_some h3

/-- Each body of a loop that goes on has gone on, from a state with what the bodies keep. -/
theorem forEach_body_goes_on {α : Type} {f : α → State → Result} {P : State → Prop}
    (hf : ∀ x s t, P s → f x s = .next t → P t) {xs : List α} {s t : State} (hs : P s) (h : forEach f xs s = .next t) :
    ∀ x ∈ xs, ∃ u v, P u ∧ f x u = .next v := by
  induction xs generalizing s with
  | nil => exact fun _ hx => absurd hx List.not_mem_nil
  | cons y ys ih =>
    obtain ⟨u, hu, h⟩ := andThen_eq_next.1 h
    exact List.forall_mem_cons.2 ⟨⟨s, u, hs, hu⟩, ih (hf y s u hs hu) h⟩

/-- LOAD_SCHEDULE goes on only where the whole block is written. -/
theorem buf_written_of_loadSchedule {s t : State} (h : loadSchedule s = .next t) (i : Fin 64) : s.buf[i].isSome := by
  have hkeep : ∀ (k : Fin 16) (u v : State), u.buf = s.buf → loadWord k u = .next v → v.buf = s.buf := by
    intro k u v hu hv
    simp only [loadWord, readBuf, readElement_eq_next, Host.Outcome.next.injEq] at hv
    obtain ⟨_, _, _, _, _, _, _, _, rfl⟩ := hv
    exact hu
  obtain ⟨u, v, hu, hv⟩ := forEach_body_goes_on hkeep rfl h ⟨i.val / 4, by omega⟩ (List.mem_finRange _)
  have hi := buf_written_of_loadWord hv ⟨i.val % 4, by omega⟩
  simpa [hu, Nat.div_add_mod] using hi

theorem buf_written_of_processBlock {s t : State} (h : processBlock s = .next t) (i : Fin 64) : s.buf[i].isSome := by
  rw [processBlock_eq_stages] at h
  obtain ⟨s₁, h₁, -⟩ := andThen_eq_next.1 h
  exact buf_written_of_loadSchedule h₁ i

theorem hash_written_of_processBlock {s t : State} (h : processBlock s = .next t) : s.H.isSome := by
  rw [processBlock_eq_stages] at h
  obtain ⟨s₁, h₁, h⟩ := andThen_eq_next.1 h
  obtain ⟨s₂, h₂, h⟩ := andThen_eq_next.1 h
  obtain ⟨s₃, h₃, -⟩ := andThen_eq_next.1 h
  obtain ⟨H, hH, -⟩ := readElement_eq_next.1 h₃
  have e₁ := loadSchedule_frame h₁
  have e₂ := forEach_expandStep_frame h₂
  rw [OnlyW] at e₁ e₂
  rw [e₂, e₁] at hH
  exact Option.isSome_of_eq_some hH

/-! ## Blocks with an element missing -/

/-- H holds no value, or an entry of BUF below `n` does not. -/
def Missing (n : Nat) (s : State) : Prop := s.H = none ∨ ∃ i : Fin 64, i.val < n ∧ s.buf[i] = none

theorem processBlock_of_missing {s : State} (h : Missing 64 s) : ∃ e, processBlock s = .fault (.unwritten e) := by
  refine (stopsUnwritten_processBlock s).resolve_left ?_
  rintro ⟨t, ht⟩
  obtain hH | ⟨i, -, hi⟩ := h
  · simpa [hH] using hash_written_of_processBlock ht
  · simpa [hi] using buf_written_of_processBlock ht i

/-- APPEND writes no entry of BUF below BUF_LEN, so what is missing stays missing. -/
theorem Missing.storeByte {s : State} (h : Missing s.bufLen.toNat s) (b : Byte) (hlt : s.bufLen.toNat < 64) {n : Nat}
    (hn : s.bufLen.toNat ≤ n) :
    Missing n { s with buf := s.buf.set s.bufLen.toNat (some b) hlt, bufLen := s.bufLen + 1#7 } := by
  refine h.imp_right fun ⟨i, hi, hnone⟩ => ⟨i, by omega, ?_⟩
  exact (Vector.getElem_set_ne hlt i.isLt (by omega)).trans hnone

theorem appendByte_of_missing {b : Byte} {s : State} (h63 : s.bufLen.toNat = 63) (h : Missing s.bufLen.toNat s) :
    ∃ e, appendByte b s = .fault (.unwritten e) := by
  have hlt : s.bufLen.toNat < 64 := by omega
  obtain ⟨e, he⟩ := processBlock_of_missing (h.storeByte b hlt hlt.le)
  exact ⟨e, by rw [appendByte_of_full h63, he, andThen_fault]⟩

/-- A run of APPENDs that reaches the end of the block stops there when an element of the block is missing. -/
theorem forEach_appendByte_of_missing {bs : List Byte} {s : State} (hlt : s.bufLen.toNat < 64)
    (hbs : 64 ≤ s.bufLen.toNat + bs.length) (h : Missing s.bufLen.toNat s) :
    ∃ e, forEach appendByte bs s = .fault (.unwritten e) := by
  induction bs generalizing s with
  | nil => exact absurd hbs (by simpa using hlt)
  | cons b bs ih =>
    rw [List.length_cons] at hbs
    rw [forEach_cons]
    by_cases h63 : s.bufLen.toNat = 63
    · obtain ⟨e, he⟩ := appendByte_of_missing (b := b) h63 h
      exact ⟨e, by rw [he, andThen_fault]⟩
    · have hnext : (s.bufLen + 1#7).toNat = s.bufLen.toNat + 1 := bufLen_succ_toNat hlt
      rw [appendByte_of_lt (by omega), andThen_next]
      refine ih ?_ ?_ (h.storeByte b hlt ?_) <;> simp only [hnext] <;> omega

theorem appendByte_of_bufLen_ge {b : Byte} {s : State} (h : 64 ≤ s.bufLen.toNat) :
    appendByte b s = .fault .bufferIndex := by
  rw [appendByte, storeByte_of_ge (Nat.not_lt.2 h), andThen_fault]

/-- FINALIZE's bytes reach the end of the block, as BUF_LEN plus their number is a multiple of 64 and not 0. -/
theorem le_add_length_finalBytes (n : Nat) (lb : BitVec 64) : 64 ≤ n + (finalBytes n lb).length := by
  have hfills := finalBytes_fills n lb
  have hne : 0 < (finalBytes n lb).length := Nat.zero_lt_succ _
  omega

/-- Settles O17: APPEND with BUF_LEN over 63 stops at once; a run of APPENDs to the end of a block with an element missing stops
in PROCESS_BLOCK. -/
theorem unreachableStatesStopTheBlock : Obligations.UnreachableStatesStopTheBlock := by
  intro s data he hp
  refine ⟨fun hm hge => ?absorbIndex, fun hge => ?finalizeIndex, fun hlt hmissing =>
    ⟨fun hm h63 => ?absorbMissing, ?finalizeMissing⟩⟩
  case absorbIndex =>
    rw [exec_absorbByte_of_room he hp hm, appendByte_of_bufLen_ge (by exact hge), andThen_fault]
  case finalizeIndex =>
    rw [exec, execFinalize, unlessErr_of_noErr he, inPhase_of_eq hp, appendPadding, appendByte_of_bufLen_ge hge]
    rfl
  case absorbMissing =>
    obtain ⟨e, hstop⟩ := appendByte_of_missing (b := data) (s := { s with msgLen := s.msgLen + 1#61 }) h63 hmissing
    exact ⟨e, by rw [exec_absorbByte_of_room he hp hm, hstop, andThen_fault]⟩
  case finalizeMissing =>
    obtain ⟨e, hstop⟩ := forEach_appendByte_of_missing hlt
      (le_add_length_finalBytes s.bufLen.toNat (lengthBits s.msgLen)) hmissing
    exact ⟨e, by rw [exec, execFinalize_of_accepted he hp hlt, hstop, andThen_fault]⟩

end Sys2Proof.Machine
end

section
/-! Proofs about the word and byte primitives (00_scope.md R10, R11; 40_preprocessor.md R126) and the ROM tables (10_state.md R41,
R42). -/

namespace Sys2Proof.Machine

/-! ## Primitives -/

theorem getLsbD_rotr (x : Word) {n i : Nat} (hn : n < 32) (hi : i < 32) :
    (rotr x n).getLsbD i = x.getLsbD ((i + n) % 32) := by
  rw [rotr_eq_rotateRight hn, BitVec.getLsbD_rotateRight, Nat.mod_eq_of_lt hn]
  by_cases h : i < 32 - n
  · have hmod : (i + n) % 32 = n + i := by omega
    rw [decide_eq_true h, cond_true, hmod]
  · have hmod : (i + n) % 32 = i - (32 - n) := by omega
    rw [decide_eq_false h, cond_false, hmod, decide_eq_true hi, Bool.true_and]

theorem getLsbD_shr (x : Word) (n i : Nat) :
    (shr x n).getLsbD i = (decide (i + n < 32) && x.getLsbD (i + n)) := by
  rw [shr, BitVec.getLsbD_ushiftRight, Nat.add_comm]
  by_cases h : i + n < 32
  · rw [decide_eq_true h, Bool.true_and]
  · rw [decide_eq_false h, Bool.false_and, BitVec.getLsbD_of_ge _ _ (Nat.not_lt.1 h)]

/-- `bytes_be32` takes apart what `be32` puts together (R11). -/
theorem bytesBE32_be32 (b0 b1 b2 b3 : Byte) : bytesBE32 (be32 b0 b1 b2 b3) = [b0, b1, b2, b3] := by
  have hbyte : ∀ (b : Byte) (n : Nat), n % 2 ^ 8 = b.toNat → BitVec.ofNat 8 n = b := fun b n h =>
    BitVec.eq_of_toNat_eq (by rw [BitVec.toNat_ofNat, h])
  have h0 := b0.isLt
  have h1 := b1.isLt
  have h2 := b2.isLt
  have h3 := b3.isLt
  simp only [bytesBE32, wordByte_eq_ofNat, be32_toNat]
  rw [hbyte b0, hbyte b1, hbyte b2, hbyte b3] <;> omega

/-- The first `k` bytes of a number, from the top, are the number without its low bytes. -/
theorem foldl_topBytes (n : Nat) (hn : n < 2 ^ 64) {k : Nat} (hk : k ≤ 8) :
    ((List.range k).map fun j => BitVec.ofNat 8 (n / 2 ^ (56 - 8 * j))).foldl (fun n b => 256 * n + b.toNat) 0 =
      n / 2 ^ (64 - 8 * k) := by
  induction k with
  | zero => exact (Nat.div_eq_of_lt hn).symm
  | succ k ih =>
    have hexp : 64 - 8 * k = (56 - 8 * k) + 8 := by omega
    have hlow : 64 - 8 * (k + 1) = 56 - 8 * k := by omega
    rw [List.range_succ, List.map_append, List.foldl_append, ih (by omega), hexp, hlow, Nat.pow_add, ← Nat.div_div_eq_div_mul]
    exact Nat.div_add_mod _ 256

/-- The eight bytes of a number give it back, most significant first (R11). -/
theorem foldl_bytesBE64 (v : BitVec 64) : (bytesBE64 v).foldl (fun n b => 256 * n + b.toNat) 0 = v.toNat := by
  rw [bytesBE64_eq_map, foldl_topBytes _ v.isLt le_rfl]
  exact Nat.div_one _

/-- Settles O25: sums by the definition, rotations and shifts bit by bit, and the byte orders as positional numbers. -/
theorem primitivesAreTheSpecs : Obligations.PrimitivesAreTheSpecs :=
  ⟨fun _ => BitVec.toNat_ofNat .., fun x _ _ _ hn hi => getLsbD_rotr x hn hi, fun x n i _ _ => getLsbD_shr x n i,
    fun b0 b1 b2 b3 => ⟨be32_toNat b0 b1 b2 b3, bytesBE32_be32 b0 b1 b2 b3⟩,
    fun v => ⟨bytesBE64_length v, foldl_bytesBE64 v⟩, lengthBits_toNat⟩

/-! ## The ROM tables -/

/-- The numbers below `N` with a property, in order, are its first `count` numbers. -/
theorem filter_range_eq_map_nth (p : Nat → Prop) [DecidablePred p] (N : Nat) :
    (List.range N).filter (p ·) = (List.range (Nat.count p N)).map (Nat.nth p) := by
  induction N with
  | zero => rfl
  | succ N ih =>
    rw [List.range_succ, List.filter_append, ih, Nat.count_succ]
    by_cases h : p N
    · rw [if_pos h, List.range_succ, List.map_append, List.map_singleton, Nat.nth_count h]
      simp [h]
    · simp [h]

/-- Trial division by the numbers below 18 decides the primes below 18 x 18. -/
def trialPrime (n : Nat) : Bool := decide (2 ≤ n ∧ ∀ m : Nat, m < 18 → 2 ≤ m → m < n → n % m ≠ 0)

theorem prime_iff_trialPrime {n : Nat} (hn : n < 18 * 18) : Nat.Prime n ↔ trialPrime n = true := by
  rw [trialPrime, decide_eq_true_iff]
  constructor
  · intro h
    refine ⟨h.two_le, fun m _ hm hmn hmod => ?_⟩
    exact (Nat.prime_def_lt'.1 h).2 m hm hmn (Nat.dvd_of_mod_eq_zero hmod)
  · rintro ⟨hn2, h⟩
    refine Nat.prime_def_le_sqrt.2 ⟨hn2, fun m hm hsqrt hdvd => ?_⟩
    have hm18 : m < 18 := hsqrt.trans_lt (Nat.sqrt_lt.2 hn)
    have hmn : m < n := hsqrt.trans_lt (Nat.sqrt_lt_self hn2)
    exact h m hm18 hm hmn (Nat.mod_eq_zero_of_dvd hdvd)

/-- The tests' table holds all primes below 312, in order. -/
theorem filter_prime_eq_primes : (List.range 312).filter (Nat.Prime ·) = Tests.primes := by
  have htrial : (List.range 312).filter trialPrime = Tests.primes := by
    decide +kernel
  rw [← htrial]
  refine List.filter_congr fun n hn => ?_
  have hlt : n < 18 * 18 := (List.mem_range.1 hn).trans (by decide)
  rw [Bool.eq_iff_iff, decide_eq_true_iff]
  exact prime_iff_trialPrime hlt

theorem nth_prime_eq (t : Fin 64) : Nat.nth Nat.Prime t.val = Tests.primes[t]! := by
  have hmap := (filter_range_eq_map_nth Nat.Prime 312).symm.trans filter_prime_eq_primes
  have hcount : Nat.count Nat.Prime 312 = 64 := by simpa [Tests.primes] using congrArg List.length hmap
  rw [hcount] at hmap
  simp [← hmap]

/-- A number with a whole part above 32 bits is those bits modulo 2^32. -/
theorem toNat_eq_add_mod (whole : Nat) (w : Word) : w.toNat = (whole * 2 ^ 32 + w.toNat) % 2 ^ 32 := by
  rw [Nat.mul_add_mod_self_right, Nat.mod_eq_of_lt w.isLt]

/-- Settles O26: the roots are a small whole part and the table's 32 bits, and the tests' tables of primes and brackets are
evaluated. -/
theorem romTablesAreTheFractionalRoots : Obligations.RomTablesAreTheFractionalRoots := by
  constructor
  · intro t
    obtain ⟨whole, hle, hlt⟩ := Tests.test_romK t
    rw [nth_prime_eq]
    exact ⟨_, hle, hlt, toNat_eq_add_mod _ _⟩
  · intro k
    obtain ⟨whole, hle, hlt⟩ := Tests.test_romH0 k
    have hk := nth_prime_eq ⟨k.val, by omega⟩
    dsimp only at hk
    rw [hk]
    exact ⟨_, hle, hlt, toNat_eq_add_mod _ _⟩

end Sys2Proof.Machine
end

section
/-! Proofs about one block (43_compressor.md R209, R210; 10_state.md R43; 42_schedule_expander.md R175): PROCESS_BLOCK as its five
stages and as a run of the micro-sequencer, its result, and the recurrence of Expand. -/

namespace Sys2Proof.Machine

/-! ## The five stages -/

/-- A run of micro-operations neither reads nor writes SEQ. -/
theorem forEach_microOp_withSeq (ps : List Seq) (q : Seq) (s : State) :
    forEach microOp ps { s with seq := q } = andThen (forEach microOp ps s) fun t => .next { t with seq := q } := by
  induction ps generalizing s with
  | nil => rfl
  | cons p ps ih =>
    rw [forEach_cons, forEach_cons, microOp_withSeq, andThen_assoc, andThen_assoc]
    simp only [andThen_next, ih]

/-- From Idle, PROCESS_BLOCK is the run of its micro-operations; SEQ is Idle after it as before. -/
theorem processBlock_of_idle {s : State} (h : s.seq = .idle) : processBlock s = forEach microOp blockSequence s := by
  have hseq : { s with seq := .idle } = s := by rw [← h]
  have hblock : processBlock s = andThen (forEach microOp blockSequence s) fun t => .next { t with seq := .idle } :=
    forEach_microAt _ .fold .load s
  rw [hblock, ← forEach_microOp_withSeq, hseq]

theorem forEach_singleton {α : Type} (f : α → State → Result) (x : α) : forEach f [x] = f x :=
  funext fun s => andThen_next_right (f x s)

theorem range'_eq_map_finRange (a n : Nat) : List.range' a n = (List.finRange n).map fun k => a + k.val := by
  refine List.ext_getElem (by simp) fun i hi _ => ?_
  simp

/-- A loop over numbers that count up from `a` is the loop over their distances from `a`. -/
theorem forEach_range' {n : Nat} [NeZero n] (a : Nat) (f : Fin n → State → Result) :
    forEach (fun t s => f (Fin.ofNat n (t - a)) s) (List.range' a n) = forEach f (List.finRange n) := by
  funext s
  rw [range'_eq_map_finRange, forEach_map]
  simp

/-- Settles O27: the run of the micro-operations of `blockSequence`, its indices written as numbers. -/
theorem processBlockRunsTheFiveStages : Obligations.ProcessBlockRunsTheFiveStages := by
  intro s h
  have hexpand := forEach_range' 16 expandStep
  have hround : forEach (fun t s => roundStep (Fin.ofNat 64 t) s) (List.range' 0 64) = _ := forEach_range' 0 roundStep
  rw [processBlock_of_idle h, hexpand, hround, blockSequence]
  simp only [forEach_append, andThen_assoc, forEach_map, forEach_singleton]
  rfl

/-! ## The micro-sequencer -/

/-- One step of the micro-sequencer on an outcome; a stop stays a stop. -/
def microStepOn (r : Result) : Result := andThen r microStep

theorem iterate_microStepOn_fault (n : Nat) (e : Fault) : microStepOn^[n] (.fault e) = .fault e :=
  Function.iterate_fixed rfl n

theorem iterate_microStepOn_refused (n : Nat) (e : Refusal) : microStepOn^[n] (.refused e) = .refused e :=
  Function.iterate_fixed rfl n

/-- The micro-operation at a position leaves SEQ at the next position. -/
theorem microAt_seq {p : Seq} {s t : State} (h : microAt p s = .next t) : t.seq = p.succ := by
  obtain ⟨u, -, h⟩ := andThen_eq_next.1 h
  cases h
  rfl

/-- Stepping the micro-sequencer runs the positions in the order of R43. -/
theorem forEach_microAt_iterate (n : Nat) (s : State) :
    forEach microAt (List.iterate Seq.succ s.seq n) s = microStepOn^[n] (.next s) := by
  induction n generalizing s with
  | zero => rfl
  | succ n ih =>
    rw [List.iterate, forEach_cons, Function.iterate_succ_apply, microStepOn, andThen_next, microStep]
    cases h : microAt s.seq s with
    | next t => rw [andThen_next, ← microAt_seq h, ih]
    | fault e => rw [andThen_fault, iterate_microStepOn_fault]
    | refused e => rw [andThen_refused, iterate_microStepOn_refused]

/-- The 115 positions of a block are those from Load on, in the order of R43. -/
theorem blockSequence_eq_iterate : blockSequence = List.iterate Seq.succ .load 115 := by
  decide +kernel

/-- Settles O28: PROCESS_BLOCK's positions are the micro-sequencer's, and Idle has no micro-operation. -/
theorem microSequencerRunsTheBlock : Obligations.MicroSequencerRunsTheBlock := by
  refine ⟨fun s => ?_, fun s h => ?_⟩
  · rw [processBlock, blockSequence_eq_iterate]
    exact (forEach_microAt_iterate 115 { s with seq := .load }).symm
  · rw [microStep, h]
    have hseq : { s with seq := .idle } = s := by rw [← h]
    exact congrArg _ hseq

/-- Settles O29: the block's run on written elements, with SEQ Idle before as after. -/
theorem processBlockCompresses : Obligations.ProcessBlockCompresses := by
  intro s B H hb hH h
  rw [stages_of_written hb hH, ← h]

/-! ## Expand -/

/-- The schedule of a block after its first `n` derived words (R174). -/
def expandTo (B : Vector Byte 64) (n : Nat) : Vector Word 64 :=
  ((List.finRange 48).take n).foldl extendSchedule (seedSchedule B)

theorem expandTo_zero (B : Vector Byte 64) : expandTo B 0 = seedSchedule B := rfl

theorem expandTo_all (B : Vector Byte 64) : expandTo B 48 = expand B := rfl

theorem expandTo_succ (B : Vector Byte 64) {n : Nat} (hn : n < 48) :
    expandTo B (n + 1) = extendSchedule (expandTo B n) ⟨n, hn⟩ := by
  have hlen : n < (List.finRange 48).length := by rwa [List.length_finRange]
  rw [expandTo, ← List.take_concat_get' _ _ hlen, List.foldl_append, List.getElem_finRange]
  rfl

/-- The words already in place stay. -/
theorem getElem_expandTo_of_le (B : Vector Byte 64) {n m i : Nat} (hnm : n ≤ m) (hm : m ≤ 48) (hi : i < 64)
    (hin : i < n + 16) : (expandTo B m)[i] = (expandTo B n)[i] := by
  induction m, hnm using Nat.le_induction with
  | base => rfl
  | succ m hnm ih =>
    rw [← ih (by omega), expandTo_succ B hm, extendSchedule]
    exact Vector.getElem_set_ne _ _ (by dsimp only; omega)

theorem getElem_expand_seed (B : Vector Byte 64) (t : Fin 16) : (expand B)[t.val] = seedWord B t := by
  have ht := t.isLt
  rw [← expandTo_all, getElem_expandTo_of_le B (Nat.zero_le 48) le_rfl (by omega) (by omega), expandTo_zero]
  simp [seedSchedule]

/-- The recurrence of R175. -/
theorem getElem_expand_derived (B : Vector Byte 64) {k : Nat} (hk : k < 48) :
    (expand B)[k + 16] =
      scheduleWord (expand B)[k] (expand B)[k + 1] (expand B)[k + 9] (expand B)[k + 14] := by
  have hplace : ∀ i (hi : i < 64), i < k + 16 → (expand B)[i] = (expandTo B k)[i] := fun i hi hik =>
    getElem_expandTo_of_le B hk.le le_rfl hi hik
  rw [hplace k (by omega) (by omega), hplace (k + 1) (by omega) (by omega), hplace (k + 9) (by omega) (by omega),
    hplace (k + 14) (by omega) (by omega), ← expandTo_all,
    getElem_expandTo_of_le B (n := k + 1) (by omega) le_rfl (by omega) (by omega), expandTo_succ B hk, extendSchedule]
  exact Vector.getElem_set_self _

/-- Settles O30: the seed words are big-endian; each later word is derived from the ones before it, which stay; and the stages
on a written block write exactly Expand of it. -/
theorem expandSatisfiesItsRecurrence : Obligations.ExpandSatisfiesItsRecurrence := by
  intro B
  refine ⟨fun t => ?seed, fun t h16 h63 => ?derived, fun s hb => ?stages⟩
  case seed => rw [getElem_expand_seed, seedWord, be32_toNat]
  case derived =>
    obtain ⟨k, rfl⟩ := Nat.exists_eq_add_of_le' h16
    rw [getElem_expand_derived B (by omega), scheduleWord_eq_ofNat, BitVec.toNat_ofNat]
    rfl
  case stages =>
    rw [loadSchedule_of_written hb, andThen_next]
    exact forEach_expandStep_of_loaded (s := { s with W := loadedSchedule B s.W }) fun t =>
      getElem_loadedSchedule_seed B s.W t

end Sys2Proof.Machine
end

section
/-! Proofs about the source's padding and blocks (40_preprocessor.md R122 to R125; 41_chunker.md R150, R151). -/

namespace Sys2Proof.Machine

/-! ## The bits of a byte sequence -/

/-- The bits of one byte, most significant first (20_memory.md R60). -/
def byteBits (b : Byte) : List Bool := (List.range 8).map fun j => b.getLsbD (7 - j)

theorem length_byteBits (b : Byte) : (byteBits b).length = 8 := rfl

theorem bits_eq_flatMap (M : List Byte) : bits M = M.flatMap byteBits := rfl

theorem bits_append (M N : List Byte) : bits (M ++ N) = bits M ++ bits N :=
  List.flatMap_append

theorem length_bits (M : List Byte) : (bits M).length = 8 * M.length :=
  length_flatMap_of_length length_byteBits M

/-- The separator byte is the bit 1 and seven zeros. -/
theorem bits_separator : bits [0x80#8] = true :: List.replicate 7 false := rfl

theorem bits_zeros (n : Nat) : bits (List.replicate n 0x00#8) = List.replicate (8 * n) false := by
  induction n with
  | zero => rfl
  | succ n ih => rw [List.replicate_succ', bits_append, ih, Nat.mul_succ, List.replicate_add]; rfl

/-- Bit `j` of byte `n`, from the top, is bit `8n + j` of the number, from the top. -/
theorem getLsbD_byte (v : BitVec 64) {n j : Nat} (hn : n < 8) (hj : j < 8) :
    (v.extractLsb' (56 - 8 * n) 8).getLsbD (7 - j) = v.getLsbD (63 - (8 * n + j)) := by
  have hbit : 56 - 8 * n + (7 - j) = 63 - (8 * n + j) := by omega
  have hlt : 7 - j < 8 := by omega
  rw [BitVec.getLsbD_extractLsb', decide_eq_true hlt, Bool.true_and, hbit]

/-- The length field at byte level is the length field at bit level (R122, R124). -/
theorem bits_bytesBE64 (v : BitVec 64) : bits (bytesBE64 v) = bits64 v := by
  have hlen : (bits (bytesBE64 v)).length = 64 := length_bits _
  refine List.ext_getElem (by rw [hlen]; rfl) fun i hi _ => ?_
  have hi64 : i < 64 := hlen ▸ hi
  have hplace : 8 * (i / 8) + i % 8 = i := Nat.div_add_mod i 8
  have hget := getElem?_flatMap_of_length length_byteBits (j := i % 8) (Nat.mod_lt i (by decide)) (bytesBE64 v) (n := i / 8)
    (by rw [bytesBE64_length]; omega)
  rw [hplace, ← bits_eq_flatMap, List.getElem?_eq_getElem hi, List.getElem?_eq_getElem (by rw [length_byteBits]; omega),
    Option.some_inj] at hget
  rw [hget]
  simp only [byteBits, bytesBE64, bits64, List.getElem_map, List.getElem_range]
  rw [getLsbD_byte v (by omega) (by omega), hplace]

/-! ## Padding -/

/-- The zero bits are the seven after the separator's bit and the zero bytes (R122, R124). -/
theorem padBitCount_eq (L : Nat) : padBitCount (8 * L) = 7 + 8 * padByteCount L := by
  rw [padBitCount, padByteCount]
  omega

theorem bits_paddingBytes (L : Nat) : bits (paddingBytes L) =
    [true] ++ List.replicate (padBitCount (8 * L)) false ++ bits64 (BitVec.ofNat 64 (8 * L)) := by
  rw [paddingBytes, bits_append, bits_append, bits_separator, bits_zeros, bits_bytesBE64, padBitCount_eq, List.replicate_add]
  rfl

/-- Settles O31: both are defined up to the same length, and the padding agrees part by part. -/
theorem padBytesIsPad : Obligations.PadBytesIsPad := by
  intro M
  rw [padBytes, pad]
  by_cases hM : M.length ≤ maxMsgBytes
  · rw [if_pos hM, if_pos hM, Option.map_some, bits_append, bits_paddingBytes]
    simp only [List.append_assoc]
  · rw [if_neg hM, if_neg hM, Option.map_none]

theorem length_paddingBytes (L : Nat) : L + (paddingBytes L).length = 64 * ((L + 8) / 64 + 1) := by
  simp only [paddingBytes, List.length_append, List.length_singleton, List.length_replicate, bytesBE64_length, padByteCount]
  omega

/-- Settles O32: the padded message has 64 ((L + 8) / 64 + 1) bytes. -/
theorem paddedLengthIsTheLeastMultiple : Obligations.PaddedLengthIsTheLeastMultiple := by
  intro M hM
  have hpad : padBytes M = some (M ++ paddingBytes M.length) := if_pos hM
  have hlen : (bits (M ++ paddingBytes M.length)).length = 512 * ((M.length + 8) / 64 + 1) := by
    rw [length_bits, List.length_append, length_paddingBytes, ← Nat.mul_assoc]
  refine ⟨_, (padBytesIsPad M).symm.trans (congrArg _ hpad), ?_⟩
  rw [hlen]
  refine ⟨?_, ?_, ?_, ?_, rfl⟩ <;> omega

/-! ## Blocks -/

theorem getElem_chunk {Q : List Byte} {n : Nat} (hn : n < (chunk Q).length) : (chunk Q)[n] = blockAt Q n := by
  simp only [chunk, List.getElem_map, List.getElem_range]

/-- Byte `i` of block `n` is byte 64n + i of the sequence (R150). -/
theorem getElem?_eq_getElem_chunk {Q : List Byte} {n : Nat} (hn : n < (chunk Q).length) (i : Fin 64) :
    Q[64 * n + i.val]? = some (chunk Q)[n][i] := by
  have hlt : 64 * n + i.val < Q.length := by rw [chunk_length] at hn; omega
  rw [getElem_chunk, List.getElem?_eq_getElem hlt]
  simp [blockAt, hlt]

/-- The blocks of a whole number of blocks, laid end to end, are the sequence (R151). -/
theorem flatMap_chunk {Q : List Byte} (hQ : Q.length % 64 = 0) : (chunk Q).flatMap Vector.toList = Q := by
  have hlen : ((chunk Q).flatMap Vector.toList).length = Q.length := by
    rw [length_flatMap_of_length (fun B => Vector.length_toList), chunk_length]
    omega
  refine List.ext_getElem? fun i => ?_
  by_cases hi : i < Q.length
  · have hn : i / 64 < (chunk Q).length := by rw [chunk_length]; omega
    have hj : i % 64 < 64 := Nat.mod_lt i (by decide)
    have hQi := getElem?_eq_getElem_chunk hn ⟨i % 64, hj⟩
    have hget := getElem?_flatMap_of_length (f := fun B : Vector Byte 64 => B.toList) (fun _ => Vector.length_toList) hj
      (chunk Q) hn
    rw [Nat.div_add_mod] at hget hQi
    rw [hget, hQi]
    simp
  · rw [List.getElem?_eq_none (by omega), List.getElem?_eq_none (by omega)]

/-- Settles O33: the padded message is a whole number of blocks, and each block is its 64 bytes of it. -/
theorem chunkPartitionsThePaddedMessage : Obligations.ChunkPartitionsThePaddedMessage := by
  intro M Q hQ
  have hpadded : M.length ≤ maxMsgBytes ∧ M ++ paddingBytes M.length = Q := by simpa [padBytes] using hQ
  have hlen : Q.length = 64 * ((M.length + 8) / 64 + 1) := by
    rw [← hpadded.2, List.length_append, length_paddingBytes]
  refine ⟨?_, flatMap_chunk (by omega), fun n hn i => getElem?_eq_getElem_chunk hn i⟩
  rw [chunk_length, hlen]
  omega

end Sys2Proof.Machine
end

section
/-! Proofs about a step by its input (45_control.md R253): what is presented is run (20_memory.md R66), and what a command word
does to ERR, CAUSE and MSG_LEN (10_state.md R34 to R36). -/

namespace Sys2Proof.Machine

/-! ## The presented input -/

theorem step_of_decoded {s : State} {w : Word} {rest : List HostInput} {i : Instr} (hx : s.pending = .command w :: rest)
    (hw : decode w = .cmd i) : step s = exec i { s with pending := rest } := by
  rw [step_of_command hx, runCommand, hw]

theorem step_of_illegal {s : State} {w : Word} {rest : List HostInput} {why : Illegal}
    (hx : s.pending = .command w :: rest) (hw : decode w = .illegal why) :
    step s = illegalCommand why { s with pending := rest } := by
  rw [step_of_command hx, runCommand, hw]

/-- `withFetchWord` presents the word's number in a word (log 14). -/
theorem withFetchWord_pending {nbits w : Nat} (hw : w < 2 ^ nbits) (s : State) :
    (s.withFetchWord nbits w).pending = .command (BitVec.ofNat 32 w) :: s.pending := by
  rw [State.withFetchWord, tableInput, Nat.mod_eq_of_lt hw]

/-- Settles O5: each kind of input by its own rule of the step. -/
theorem stepRunsThePresentedInput : Obligations.StepRunsThePresentedInput := by
  intro s rest
  refine ⟨fun w i hx hw => step_of_decoded hx hw, fun w hx he => ⟨fun hw => ?opcode, fun hw => ?reserved⟩,
    fun w why hx he hw => ?ignored, fun hx => step_of_reset hx, fun hx => step_of_nothing hx, fun nbits w i _ hlt hw => ?fetch⟩
  case opcode | reserved => rw [step_of_illegal hx hw]; exact illegalCommand_of_noErr (s := { s with pending := rest }) he
  case ignored => rw [step_of_illegal hx hw]; exact illegalCommand_of_err (s := { s with pending := rest }) he
  case fetch => rw [step_of_decoded (withFetchWord_pending hlt s) hw]; rfl

/-! ## ERR and CAUSE -/

/-- The core goes from ERR = 0 to ERR = 1 with one cause and a response of 0, and nothing else changes (R301). -/
def TakesFault (s t : State) : Prop := s.err = false ∧ ∃ c, c ≠ Cause.none ∧ Host.Outcome.next t = latched c s

theorem CommandEffect.err_cause {i : Instr} {s t : State} (h : CommandEffect i s t) :
    (t.err = s.err ∧ t.cause = s.cause) ∨ TakesFault s t := by
  cases h with
  | answer _ _ _ eq | init _ _ eq => rw [eq]; exact .inl ⟨rfl, rfl⟩
  | absorb _ _ _ _ _ _ appended eq => rw [eq]; exact .inl appended.frame.faultFields_eq
  | finalize _ _ _ _ _ appended eq => rw [eq]; exact .inl appended.frame.faultFields_eq
  | wrongPhase he _ eq => exact .inr ⟨he, .wrongPhase, nofun, by rw [eq]; rfl⟩
  | overflow he _ _ _ eq => exact .inr ⟨he, .lengthOverflow, nofun, by rw [eq]; rfl⟩

/-- A command word leaves ERR and CAUSE, or takes the fault path. -/
theorem runCommand_err_cause {w : Word} {s t : State} (h : runCommand w s = .next t) :
    (t.err = s.err ∧ t.cause = s.cause) ∨ TakesFault s t := by
  obtain ⟨i, -, e⟩ | ⟨why, -, e⟩ := runCommand_effect h
  · exact e.err_cause
  · obtain ⟨-, rfl⟩ | ⟨he, rfl⟩ := illegalCommand_eq_next.1 e
    · exact .inl ⟨rfl, rfl⟩
    · exact .inr ⟨he, illegalCause why, by cases why <;> exact nofun, rfl⟩

/-- Settles O38: a reset leaves ERR = 0; a command word leaves both or takes the fault path, from ERR = 0 to ERR = 1. -/
theorem errAndCauseChangeOnlyOnTheFaultPath : Obligations.ErrAndCauseChangeOnlyOnTheFaultPath := by
  intro s t x rest hx h
  cases x with
  | reset =>
    have ht := h
    rw [step_of_reset hx] at ht
    cases ht
    exact ⟨fun _ => nofun, fun _ _ => rfl, fun _ => .inl rfl⟩
  | command w =>
    have hrun := h
    rw [step_of_command hx] at hrun
    obtain ⟨herr, hcause⟩ | ⟨he, c, hc, ht⟩ := runCommand_err_cause hrun
    · dsimp only at herr hcause
      refine ⟨fun he ht => ?_, fun he ht => ?_, fun hne => absurd hcause hne⟩
      · exact absurd (ht.symm.trans (herr.trans he)) nofun
      · exact absurd (he.symm.trans (herr.symm.trans ht)) nofun
    · have hterr : t.err = true := by cases ht; rfl
      refine ⟨fun _ _ => ⟨c, hc, h.trans ht⟩, fun he' => ?_, fun _ => .inr ⟨he, hterr⟩⟩
      exact absurd (he.symm.trans he') nofun

/-! ## MSG_LEN -/

/-- MSG_LEN below 2^61 - 1 counts on without a wrap (R155, R304). -/
theorem msgLen_succ_toNat {n : BitVec 61} (hn : n.toNat ≠ maxMsgBytes) : (n + 1#61).toNat = n.toNat + 1 := by
  have hlt := n.isLt
  rw [maxMsgBytes] at hn
  simp only [BitVec.toNat_add, BitVec.toNat_ofNat]
  omega

/-- APPEND leaves MSG_LEN as it is. -/
theorem OnlyBlockState.msgLen_eq {s t : State} (h : OnlyBlockState s t) : t.msgLen = s.msgLen := by
  rw [OnlyBlockState] at h
  rw [h]

/-- MSG_LEN after a command: unchanged unless it is an obeyed INIT or an accepted ABSORB_BYTE, which goes on with ERR = 0. -/
theorem CommandEffect.msgLen {i : Instr} {s t : State} (h : CommandEffect i s t) :
    (t.msgLen = s.msgLen ∧ (t.err = true ∨ ∀ data, i ≠ .absorbByte data)) ∨
    (t.err = false ∧ i = .init) ∨
    (t.err = false ∧ (∃ data, i = .absorbByte data) ∧ t.msgLen.toNat = s.msgLen.toNat + 1) := by
  cases h with
  | answer _ why _ eq =>
    rw [eq]
    refine .inl ⟨rfl, why.imp id fun hread data => ?_⟩
    obtain rfl | rfl | ⟨_, rfl⟩ | ⟨_, rfl⟩ := hread <;> exact nofun
  | wrongPhase _ _ eq | overflow _ _ _ _ eq => rw [eq]; exact .inl ⟨rfl, .inl rfl⟩
  | init he which eq => rw [eq]; exact .inr (.inl ⟨he, which⟩)
  | absorb data u he _ room which appended eq =>
    refine .inr (.inr ⟨?_, ⟨data, which⟩, ?_⟩) <;> rw [eq]
    · exact appended.frame.faultFields_eq.1.trans he
    · rw [State.respond_msgLen, appended.frame.msgLen_eq, msgLen_succ_toNat room]
  | finalize _ _ _ which _ appended eq =>
    rw [eq, which]
    exact .inl ⟨appended.frame.msgLen_eq, .inr nofun⟩

/-- An illegal word leaves MSG_LEN as it is, and ERR = 1. -/
theorem illegalCommand_msgLen {why : Illegal} {s t : State} (h : illegalCommand why s = .next t) :
    t.msgLen = s.msgLen ∧ t.err = true := by
  obtain ⟨he, rfl⟩ | ⟨-, rfl⟩ := illegalCommand_eq_next.1 h
  · exact ⟨rfl, he⟩
  · exact ⟨rfl, rfl⟩

/-- Settles O40: an obeyed INIT by its own equation; the rest by the effect of the command that the word decodes to. -/
theorem messageLengthCountsAcceptedBytes : Obligations.MessageLengthCountsAcceptedBytes := by
  intro s t w rest hx h
  refine ⟨fun he hinit => ?init, ?_⟩
  case init =>
    subst hinit
    rw [step_of_decoded hx decode_initWord, exec_init_of_noErr (by exact he)] at h
    cases h
    rfl
  rw [step_of_command hx] at h
  obtain ⟨i, hw, e⟩ | ⟨why, -, e⟩ := runCommand_effect h
  · obtain ⟨hsel, -⟩ := decode_eq_cmd_iff_numberSelects.1 hw
    obtain ⟨hmsg, hwhy⟩ | ⟨herr, rfl⟩ | ⟨herr, ⟨data, rfl⟩, hmsg⟩ := e.msgLen
    · refine ⟨fun herr hop => ?_, fun _ => hmsg, fun _ _ => hmsg⟩
      obtain ⟨data, rfl⟩ := (exists_absorbByte_iff hsel).2 hop
      obtain htrue | hne := hwhy
      · exact absurd (herr.symm.trans htrue) nofun
      · exact absurd rfl (hne data)
    · refine ⟨fun _ hop => ?_, fun htrue => absurd (herr.symm.trans htrue) nofun,
        fun hne => absurd (eq_encode_of_decode hw) hne⟩
      rw [NumberSelects] at hsel
      omega
    · exact ⟨fun _ _ => hmsg, fun htrue => absurd (herr.symm.trans htrue) nofun, fun _ hop => absurd hsel.1 hop⟩
  · obtain ⟨hmsg, herr⟩ := illegalCommand_msgLen e
    exact ⟨fun hfalse => absurd (herr.symm.trans hfalse) nofun, fun _ => hmsg, fun _ _ => hmsg⟩

end Sys2Proof.Machine
end

section
/-! Proofs about the digest of a message (45_control.md R257; 00_scope.md R14): INIT, the bytes and FINALIZE by what the core has
absorbed, the run of a whole program, and the digest read back. -/

namespace Sys2Proof.Machine

/-! ## Absorbing -/

/-- What has been absorbed is a stream from H0 (R153, R154). -/
theorem State.Absorbed.streamed {M : List Byte} {s : State} (h : s.Absorbed M) : Streamed Rom.H0 M s :=
  ⟨h.tailLength, h.tail, h.hash⟩

/-- The ports are not in what has been absorbed. -/
theorem State.Absorbed.withPorts {M : List Byte} {s : State} (h : s.Absorbed M) (inputs : List HostInput)
    (answers : List Word) : { s with pending := inputs, responses := answers }.Absorbed M :=
  ⟨h.noErr, h.inAbsorb, h.count, h.tailLength, h.tail, h.hash⟩

theorem absorbed_startDigest {s : State} (he : s.err = false) : (startDigest s).Absorbed [] :=
  ⟨he, rfl, rfl, rfl, fun _ hi => absurd hi (Nat.not_lt_zero _), rfl⟩

theorem exec_init_absorbed {s : State} (he : s.err = false) : ∃ t, exec .init s = .next t ∧ t.Absorbed [] :=
  ⟨_, exec_init_of_noErr he, (absorbed_startDigest he).withPorts s.pending (0#32 :: s.responses)⟩

theorem exec_absorbByte_absorbed {s : State} {M : List Byte} (h : s.Absorbed M) (hM : M.length < 2 ^ 61 - 1) (b : Byte) :
    ∃ t, exec (.absorbByte b) s = .next t ∧ t.Absorbed (M ++ [b]) := by
  have hroom : s.msgLen.toNat < 2 ^ 61 - 1 := by rwa [h.count]
  have hstream : Streamed Rom.H0 M { s with msgLen := s.msgLen + 1#61 } := ⟨h.tailLength, h.tail, h.hash⟩
  obtain ⟨u, hu, hst⟩ := hstream.appendByte b
  have hframe : OnlyBlockState { s with msgLen := s.msgLen + 1#61 } u := (appendByte_effect hu).frame
  refine ⟨u.respond 0#32, by rw [exec_absorbByte_of_room h.noErr h.inAbsorb hroom, hu, andThen_next], ?_⟩
  refine ⟨hframe.faultFields_eq.1.trans h.noErr, hframe.phase_eq.trans h.inAbsorb, ?_, hst.bufLen, hst.tail, hst.hash⟩
  rw [State.respond_msgLen, hframe.msgLen_eq, msgLen_succ_toNat (by exact Nat.ne_of_lt hroom), h.count, List.length_append,
    List.length_singleton]

/-- Settles O45: INIT writes H0 and empties the counts; an accepted byte extends the stream and the count. -/
theorem absorbByteExtendsTheMessage : Obligations.AbsorbByteExtendsTheMessage :=
  ⟨fun _ he => exec_init_absorbed he, fun _ _ b h hM => exec_absorbByte_absorbed h hM b⟩

/-! ## Finalizing -/

/-- FINALIZE appends the bytes that PadBytes adds (R124, R130). -/
theorem finalBytes_eq_paddingBytes {M : List Byte} {s : State} (h : s.Absorbed M) :
    finalBytes s.bufLen.toNat (lengthBits s.msgLen) = paddingBytes M.length := by
  have hzeros : padByteCount s.bufLen.toNat = padByteCount M.length := by
    rw [h.tailLength, padByteCount, padByteCount]
    omega
  have hlength : lengthBits s.msgLen = BitVec.ofNat 64 (8 * M.length) := by
    rw [← h.count, ← lengthBits_toNat, BitVec.ofNat_toNat, BitVec.setWidth_eq]
  rw [finalBytes, hzeros, hlength]
  rfl

theorem exec_finalize_absorbed {s : State} {M : List Byte} (h : s.Absorbed M) (hM : M.length ≤ 2 ^ 61 - 1) :
    ∃ t h, exec .finalize s = .next t ∧ t.Ended ∧ t.H = some h ∧ sha256 M = some (serialize h) := by
  have hlt : s.bufLen.toNat < 64 := by
    rw [h.tailLength]
    exact Nat.mod_lt _ (by decide)
  obtain ⟨u, hu, hst⟩ := h.streamed.forEach_appendByte (paddingBytes M.length)
  have hframe : OnlyBlockState s u := (forEach_appendByte_effect hu).frame
  have hpad : padBytes M = some (M ++ paddingBytes M.length) := if_pos hM
  refine ⟨{ u with phase := .done }.respond 0#32, _, ?_, ⟨rfl, hframe.faultFields_eq.1.trans h.noErr⟩, hst.hash, ?_⟩
  · rw [exec, execFinalize_of_accepted h.noErr h.inAbsorb hlt, finalBytes_eq_paddingBytes h, hu, andThen_next]
  · rw [sha256, hpad, Option.map_some]

/-- Settles O46: the bytes appended make the stream the padded message, whose blocks are then all in H. -/
theorem finalizeLeavesTheDigest : Obligations.FinalizeLeavesTheDigest :=
  fun _ _ h hM => exec_finalize_absorbed h hM

/-! ## The program of a message -/

/-- A command that reports no value answers 0. -/
theorem exec_answers_zero {i : Instr} {s t : State} (hi : ¬ ReportsValue i s) (h : exec i s = .next t) :
    t.pending = s.pending ∧ t.responses = 0#32 :: s.responses := by
  obtain ⟨hpending, v, hresponses, hvalue⟩ := exec_answersOnce h
  have hv : v = 0#32 := by
    by_contra hne
    exact hi (hvalue hne)
  exact ⟨hpending, hv ▸ hresponses⟩

theorem readsOnly_of_reportsValue {i : Instr} {s : State} (h : ReportsValue i s) : Instr.readsOnly i := by
  obtain rfl | ⟨-, -, hread⟩ := h
  · exact .inr (.inl rfl)
  · exact .inr (.inr hread)

/-- The step that takes the word of a command that is no read and goes on. -/
theorem step_of_presented {i : Instr} {w : Word} {s t : State} {rest : List HostInput}
    (hx : s.pending = .command w :: rest) (hw : decode w = .cmd i) (hi : ¬ Instr.readsOnly i)
    (h : exec i { s with pending := rest } = .next t) :
    step s = .next t ∧ t.pending = rest ∧ t.responses = 0#32 :: s.responses :=
  ⟨(step_of_decoded hx hw).trans h, exec_answers_zero (hi ∘ readsOnly_of_reportsValue) h⟩

theorem not_readsOnly_init : ¬ Instr.readsOnly .init := by simp [Instr.readsOnly]

theorem not_readsOnly_absorbByte (b : Byte) : ¬ Instr.readsOnly (.absorbByte b) := by simp [Instr.readsOnly]

theorem not_readsOnly_finalize : ¬ Instr.readsOnly .finalize := by simp [Instr.readsOnly]

theorem encode_absorbByte (b : Byte) : encode (.absorbByte b) = BitVec.ofNat 32 (0x20000000 + b.toNat) := by
  have := b.isLt
  apply BitVec.eq_of_toNat_eq
  simp only [encode, append_toNat, BitVec.toNat_ofNat]
  omega

/-- The command words of a message's bytes. -/
def byteInputs (M : List Byte) : List HostInput := M.map fun b => .command (encode (.absorbByte b))

/-- The run over a message's bytes: each step absorbs one, and answers 0. -/
theorem run_byteInputs (M : List Byte) {P : List Byte} {s : State} {rest : List HostInput} (h : s.Absorbed P)
    (hlen : P.length + M.length ≤ 2 ^ 61 - 1) (hx : s.pending = byteInputs M ++ rest) :
    ∃ t : State, t.Absorbed (P ++ M) ∧ t.pending = rest ∧ t.responses = List.replicate M.length 0#32 ++ s.responses ∧
      ∀ k, Host.Core.run Sys2Proof.core (k + M.length) s = Host.Core.run Sys2Proof.core k t := by
  induction M generalizing P s with
  | nil => exact ⟨s, by rwa [List.append_nil], hx, rfl, fun _ => rfl⟩
  | cons b M ih =>
    rw [List.length_cons] at hlen
    obtain ⟨u, hu, hPb⟩ := exec_absorbByte_absorbed (h.withPorts (byteInputs M ++ rest) s.responses) (by omega) b
    obtain ⟨hstep, hpending, hresponses⟩ := step_of_presented hx (decode_encode _) (not_readsOnly_absorbByte b) hu
    obtain ⟨t, ht, htp, htr, hrun⟩ := ih hPb (by rw [List.length_append, List.length_singleton]; omega) hpending
    refine ⟨t, by rwa [← List.append_cons] at ht, htp, ?_, fun k => ?_⟩
    · rw [htr, hresponses, List.length_cons, List.replicate_succ', List.append_assoc]
      rfl
    · rw [← hrun k]
      exact run_of_step (M := Sys2Proof.core) hstep

/-! ## The digest read back -/

/-- READ_DIGEST_BYTE answers the byte of the serialized digest (R230, R234). -/
theorem zext32_digestByte_eq_getD_serialize (h : Vector Word 8) (j : BitVec 5) :
    zext32 (digestByte h j) = BitVec.ofNat 32 ((serialize h).getD j.toNat 0#8).toNat := by
  have hj := j.isLt
  have hbyte := (digestIsBigEndian h).2 ⟨j.toNat / 4, by omega⟩ ⟨j.toNat % 4, by omega⟩
  dsimp only at hbyte
  rw [Nat.div_add_mod] at hbyte
  rw [List.getD_eq_getElem?_getD, hbyte, Option.getD_some, zext32_digestByte, BitVec.toNat_ofNat]
  rfl

/-- Settles O47: the run is INIT's step, the bytes' steps and FINALIZE's step, each with a response of 0. -/
theorem commandMachineComputesSha256 : Obligations.CommandMachineComputesSha256 := by
  intro s M rest he hM hx
  simp only [← encode_absorbByte] at hx
  have hprogram : s.pending = .command 0x10000000#32 :: (byteInputs M ++ .command 0x30000000#32 :: rest) := hx
  obtain ⟨t₀, hinit, hempty⟩ := exec_init_absorbed
    (s := { s with pending := byteInputs M ++ .command 0x30000000#32 :: rest }) he
  obtain ⟨hstep₀, hpending₀, hresponses₀⟩ := step_of_presented hprogram decode_initWord not_readsOnly_init hinit
  obtain ⟨t₁, habsorbed, hpending₁, hresponses₁, hrun⟩ := run_byteInputs M hempty (by simpa using hM) hpending₀
  obtain ⟨t, h, hfinalize, hended, hH, hsha⟩ := exec_finalize_absorbed (habsorbed.withPorts rest t₁.responses) hM
  obtain ⟨hstep, hpending, hresponses⟩ := step_of_presented hpending₁ decode_finalizeWord not_readsOnly_finalize hfinalize
  refine ⟨t, h, serialize h, ?run, hended, hH, hpending, ?responses, hsha, rfl, length_serialize h, fun j => ?byte⟩
  case run =>
    calc Host.Core.run Sys2Proof.core (M.length + 2) s
        = Host.Core.run Sys2Proof.core (M.length + 1) t₀ := run_of_step (M := Sys2Proof.core) hstep₀
      _ = Host.Core.run Sys2Proof.core 1 t₁ := by rw [Nat.add_comm]; exact hrun 1
      _ = .next t := run_of_step (M := Sys2Proof.core) hstep
  case responses =>
    rw [hresponses, hresponses₁, hresponses₀, List.replicate_succ, List.replicate_succ', List.append_cons]
    rfl
  case byte => rw [exec_readDigestByte, digestRead_of_written _ hended.2 hended.1 hH,
    zext32_digestByte_eq_getD_serialize]

end Sys2Proof.Machine
end

section
/-! Proofs about what a host can see (60_exceptions.md R315; 44_output_serializer.md R232) and about the instances of a platform
(20_memory.md R72). -/

namespace Sys2Proof.Machine

/-! ## The view of a host -/

theorem State.SameView.withPending {s t : State} (h : s.SameView t) (rest : List HostInput) :
    { s with pending := rest }.SameView { t with pending := rest } :=
  ⟨h.phase, h.err, h.cause, h.bufLen, rfl, h.responses⟩

/-- The status word is in the view (R44). -/
theorem State.SameView.statusNumber_eq {s t : State} (h : s.SameView t) : statusNumber s = statusNumber t := by
  rw [statusNumber, statusNumber, h.phase, h.err, h.cause, h.bufLen]

/-- Outside DONE with ERR = 0, only READ_STATUS reports a value. -/
theorem eq_readStatus_of_reportsValue {i : Instr} {s : State} (hs : s.phase ≠ .done ∨ s.err = true)
    (h : ReportsValue i s) : i = .readStatus := by
  obtain hi | ⟨he, hp, -⟩ := h
  · exact hi
  · obtain hne | herr := hs
    · exact absurd hp hne
    · exact absurd (he.symm.trans herr) nofun

/-- Such a command other than READ_STATUS answers 0. -/
theorem exec_responses_of_hidden {i : Instr} {s t : State} (hs : s.phase ≠ .done ∨ s.err = true) (hi : i ≠ .readStatus)
    (h : exec i s = .next t) : t.responses = 0#32 :: s.responses :=
  (exec_answers_zero (fun hreports => hi (eq_readStatus_of_reportsValue hs hreports)) h).2

theorem illegalCommand_responses {why : Illegal} {s t : State} (h : illegalCommand why s = .next t) :
    t.responses = 0#32 :: s.responses := by
  obtain ⟨-, rfl⟩ | ⟨-, rfl⟩ := illegalCommand_eq_next.1 h <;> rfl

theorem runCommand_responses_eq {w : Word} {s₁ s₂ t₁ t₂ : State} (hview : s₁.SameView s₂)
    (hs : s₁.phase ≠ .done ∨ s₁.err = true) (h₁ : runCommand w s₁ = .next t₁) (h₂ : runCommand w s₂ = .next t₂) :
    t₁.responses = t₂.responses := by
  have hs₂ : s₂.phase ≠ .done ∨ s₂.err = true := by rwa [← hview.phase, ← hview.err]
  rw [runCommand] at h₁ h₂
  cases hw : decode w with
  | illegal why =>
    rw [hw] at h₁ h₂
    rw [illegalCommand_responses h₁, illegalCommand_responses h₂, hview.responses]
  | cmd i =>
    rw [hw] at h₁ h₂
    by_cases hi : i = .readStatus
    · subst hi
      dsimp only at h₁ h₂
      rw [exec_readStatus] at h₁ h₂
      cases h₁
      cases h₂
      dsimp only
      rw [hview.statusNumber_eq, hview.responses]
    · rw [exec_responses_of_hidden hs hi h₁, exec_responses_of_hidden hs₂ hi h₂, hview.responses]

/-- Settles O48: the same input is taken from both; outside DONE with ERR = 0 its response is 0 or the status word. -/
theorem hiddenStateIsNotObservable : Obligations.HiddenStateIsNotObservable := by
  intro s₁ s₂ t₁ t₂ hview hs h₁ h₂
  match hx : s₁.pending with
  | [] =>
    rw [step_of_nothing hx] at h₁
    rw [step_of_nothing (hview.pending.symm.trans hx)] at h₂
    cases h₁
    cases h₂
    exact hview.responses
  | .reset :: rest =>
    rw [step_of_reset hx] at h₁
    rw [step_of_reset (hview.pending.symm.trans hx)] at h₂
    cases h₁
    cases h₂
    exact hview.responses
  | .command w :: rest =>
    rw [step_of_command hx] at h₁
    rw [step_of_command (hview.pending.symm.trans hx)] at h₂
    exact runCommand_responses_eq (hview.withPending rest) hs h₁ h₂

/-! ## Interleavings -/

/-- Two platforms are the same when their instances are. -/
theorem Platform.ext_insts {cfg : Config} {p q : Platform cfg} (h : ∀ i : Fin cfg.nInst, p.insts[i] = q.insts[i]) :
    p = q := by
  obtain ⟨ps⟩ := p
  obtain ⟨qs⟩ := q
  exact congrArg _ (Vector.ext fun i hi => h ⟨i, hi⟩)

/-- A platform whose stepped instance does not go on does not. -/
theorem stepAt_ne_next {cfg : Config} {p q : Platform cfg} {i : Fin cfg.nInst} (h : ∀ t, step p.insts[i] ≠ .next t) :
    p.stepAt i ≠ .next q := by
  rw [Platform.stepAt]
  cases hs : step p.insts[i] with
  | next t => exact absurd hs (h t)
  | fault | refused => exact nofun

theorem run_cons_of_next {cfg : Config} {p q : Platform cfg} {i : Fin cfg.nInst} (h : p.stepAt i = .next q)
    (sched : List (Fin cfg.nInst)) : Platform.run (i :: sched) p = Platform.run sched q := by
  rw [Platform.run, h]

theorem run_cons_ne_next {cfg : Config} {p q : Platform cfg} {i : Fin cfg.nInst} (h : ∀ t, step p.insts[i] ≠ .next t)
    (sched : List (Fin cfg.nInst)) : Platform.run (i :: sched) p ≠ .next q := by
  rw [Platform.run]
  cases hs : p.stepAt i with
  | next r => exact absurd hs (stepAt_ne_next h)
  | fault | refused => exact nofun

/-- Settles O49: by induction on the interleaving; a step moves its own instance one step on and leaves the others. -/
theorem interleavingChangesNoInstance : Obligations.InterleavingChangesNoInstance := by
  intro cfg sched
  induction sched with
  | nil =>
    intro p q
    refine ⟨fun h i => ?_, fun h => congrArg _ (Platform.ext_insts fun i => ?_)⟩
    · cases h; rfl
    · exact Host.Outcome.next.inj (h i)
  | cons i sched ih =>
    intro p q
    by_cases hgo : ∃ t, step p.insts[i] = .next t
    · obtain ⟨t, ht⟩ := hgo
      obtain ⟨r, hr, hown, hothers⟩ := stepAt_of_step ht
      rw [run_cons_of_next hr, ih r q]
      refine forall_congr' fun j => ?_
      by_cases hj : j = i
      · subst hj
        rw [List.count_cons_self, hown, run_of_step (M := Sys2Proof.core) ht]
      · rw [List.count_cons_of_ne (Ne.symm hj), hothers j hj]
    · have hstop : ∀ t, step p.insts[i] ≠ .next t := fun t ht => hgo ⟨t, ht⟩
      refine iff_of_false (run_cons_ne_next hstop sched) fun h => ?_
      have hi := h i
      rw [List.count_cons_self] at hi
      exact run_of_stop (M := Sys2Proof.core) hstop hi

end Sys2Proof.Machine
end

section
/-! Proofs about the assembler (30_encoding.md R98, R99): words and texts of a line, numbers that read back and numbers that do not,
and the commands of a line. -/

namespace Sys2Proof.Machine

/-! ## Words of a line -/

theorem plainChar_iff {c : Char} : plainChar c ↔ c ∉ wordEnders := by
  simp only [plainChar, wordEnders, List.mem_cons, List.not_mem_nil, or_false, not_or]
  tauto

theorem isWord.plain {m : List Char} (h : isWord m) : ∀ c ∈ m, plainChar c := fun c hc => plainChar_iff.2 (h.2 c hc)

theorem isWord_of_plain {m : List Char} (hne : m ≠ []) (h : ∀ c ∈ m, plainChar c) : isWord m :=
  ⟨hne, fun c hc => plainChar_iff.1 (h c hc)⟩

theorem isWord_of_listed {m : List Char} (h : m ∈ listedMnemonics) : isWord m := by
  revert m
  simp [listedMnemonics, isWord, wordEnders]

section
variable {m : List Char} (h : isWord m)
include h

theorem lexLine_gap_word : lexLine .gap m = some [.word m] := by
  have hrun := lexLine_gap_run h.plain h.1 []
  rwa [List.append_nil, lexLine_word_end, List.reverse_reverse] at hrun

theorem lexLine_gap_word_space (cs : List Char) :
    lexLine .gap (m ++ ' ' :: cs) = (lexLine .gap cs).map (.word m :: ·) := by
  rw [lexLine_gap_run h.plain h.1, lexLine_word_space, List.reverse_reverse]

theorem lexLine_gap_word_comma (cs : List Char) :
    lexLine .gap (m ++ ',' :: cs) = (lexLine .gap cs).map fun ts => .word m :: .comma :: ts := by
  rw [lexLine_gap_run h.plain h.1, lexLine_word_comma, List.reverse_reverse]

/-- Whatever follows the word on its line, the word is the first token. -/
theorem lexLine_gap_word_first {rest : List Char} (hrest : startsOutside rest) :
    ∃ o : Option (List Token), lexLine .gap (m ++ rest) = o.map (.word m :: ·) := by
  obtain ⟨o, ho⟩ := lexLine_word_first m.reverse fun c hc => fun hplain => plainChar_iff.1 hplain (hrest c hc)
  exact ⟨o, by rw [lexLine_gap_run h.plain h.1, ho, List.reverse_reverse]⟩

end

/-! ## Lines -/

theorem assembleLine_of_lex {line : List Char} {ts : List Token} (h : lexLine .gap line = some ts) :
    assembleLine line = (parseLine ts).map fun is => is.map encode := by
  rw [assembleLine, h, Option.bind_some]

/-- A line is refused when whatever its last tokens are, its tokens stand for nothing. -/
theorem assembleLine_of_refused {line : List Char} {o : Option (List Token)} {f : List Token → List Token}
    (h : lexLine .gap line = o.map f) (hf : ∀ ts, parseLine (f ts) = none) : assembleLine line = none := by
  rw [assembleLine, h]
  cases o with
  | none => rfl
  | some ts => rw [Option.map_some, Option.bind_some, hf, Option.map_none]

/-! ## Numbers -/

theorem parseNumber_of_decimal {cs : List Char} (hne : cs ≠ []) (h : ¬ ['0', 'x'] <+: cs) :
    parseNumber cs = digitsValue 10 0 cs := by
  unfold parseNumber
  split
  · exact absurd rfl hne
  · exact absurd (List.prefix_refl _) h
  · exact absurd ⟨_, rfl⟩ h
  · rfl

theorem parseNumber_of_hexadecimal {cs : List Char} (hne : cs ≠ []) :
    parseNumber ('0' :: 'x' :: cs) = digitsValue 16 0 cs := by
  cases cs with
  | nil => exact absurd rfl hne
  | cons c cs => rfl

theorem isSome_digitValue_toDigits {base : Nat} (h1 : 1 < base) (h16 : base ≤ 16) (n : Nat) :
    ∀ c ∈ Nat.toDigits base n, (digitValue base c).isSome :=
  isSome_digitValue_of_digitsValue (digitsValue_toDigits h1 h16 n)

theorem parseNumber_of_writesNumber {ds : List Char} {n : Nat} (h : writesNumber ds n) : parseNumber ds = some n := by
  obtain rfl | rfl := h
  · have hdigits := isSome_digitValue_toDigits (base := 10) (by decide) (by decide) n
    have hprefix : ¬ ['0', 'x'] <+: Nat.toDigits 10 n := fun hp => by
      have hx := hdigits 'x' (hp.subset (by simp))
      exact absurd hx (by decide)
    rw [parseNumber_of_decimal (toDigits_ne_nil (by decide) n) hprefix, digitsValue_toDigits (by decide) (by decide)]
  · rw [parseNumber_of_hexadecimal (toDigits_ne_nil (by decide) n), digitsValue_toDigits (by decide) (by decide)]

/-- A number as R98 writes it is one word. -/
theorem isWord_of_writesNumber {ds : List Char} {n : Nat} (h : writesNumber ds n) : isWord ds := by
  obtain rfl | rfl := h
  · exact isWord_of_plain (toDigits_ne_nil (by decide) n) fun c hc =>
      plainChar_of_digit (.inl (isSome_digitValue_toDigits (base := 10) (by decide) (by decide) n c hc))
  · refine isWord_of_plain nofun fun c hc => ?_
    obtain rfl | rfl | hc := by simpa using hc
    · exact plainChar_of_digit (base := 16) (.inl (by decide))
    · exact plainChar_of_digit (base := 16) (.inr rfl)
    · exact plainChar_of_digit (.inl (isSome_digitValue_toDigits (base := 16) (by decide) (by decide) n c hc))

theorem parseOperand_of_writesNumber {ds : List Char} {n : Nat} (h : writesNumber ds n) (w : Nat) :
    parseOperand w ds = if n < 2 ^ w then some (BitVec.ofNat w n) else none :=
  parseOperand_of_number (parseNumber_of_writesNumber h) w

/-- A digit of any base is an ASCII character. -/
theorem toNat_lt_of_digitValue {base : Nat} {c : Char} (h : (digitValue base c).isSome) : c.toNat < 128 := by
  by_contra hge
  have hnot : ∀ d : Char, d.toNat < 128 → ¬ c ≤ d := fun d hd hle => by
    have hle : c.toNat ≤ d.toNat := hle
    omega
  simp [digitValue, hnot '9' (by decide), hnot 'f' (by decide), hnot 'F' (by decide)] at h

/-- Where the ASCII digits of a base are in a list, every digit of the base is. -/
theorem mem_of_digitValue {base : Nat} {digits : List Char}
    (hall : ∀ n : Fin 128, (digitValue base (Char.ofNat n)).isSome → Char.ofNat n ∈ digits) {c : Char}
    (h : (digitValue base c).isSome) : c ∈ digits := by
  have hc := hall ⟨c.toNat, toNat_lt_of_digitValue h⟩
  rw [Char.ofNat_toNat] at hc
  exact hc h

theorem mem_decimal_of_digitValue {c : Char} (h : (digitValue 10 c).isSome) : c ∈ "0123456789".toList :=
  mem_of_digitValue (by decide +kernel) h

theorem mem_hexadecimal_of_digitValue {c : Char} (h : (digitValue 16 c).isSome) : c ∈ "0123456789abcdefABCDEF".toList :=
  mem_of_digitValue (by decide +kernel) h

theorem parseNumber_of_malformed {ds : List Char} (hne : ds ≠ []) (h : malformedNumber ds) : parseNumber ds = none := by
  obtain ⟨hprefix, c, hc, hnot⟩ | ⟨hs, rfl, hhex⟩ := h
  · rw [parseNumber_of_decimal hne hprefix, Option.eq_none_iff_forall_ne_some]
    exact fun n hn => hnot (mem_decimal_of_digitValue (isSome_digitValue_of_digitsValue hn c hc))
  · obtain rfl | ⟨c, hc, hnot⟩ := hhex
    · rfl
    · rw [parseNumber_of_hexadecimal (List.ne_nil_of_mem hc), Option.eq_none_iff_forall_ne_some]
      exact fun n hn => hnot (mem_hexadecimal_of_digitValue (isSome_digitValue_of_digitsValue hn c hc))

theorem parseOperand_of_malformed {ds : List Char} (hne : ds ≠ []) (h : malformedNumber ds) (w : Nat) :
    parseOperand w ds = none := by
  rw [parseOperand, parseNumber_of_malformed hne h, Option.bind_none]

/-! ## The forms of R98 -/

theorem parseLine_of_unlisted {m : List Char} (hm : m ∉ listedMnemonics) (ts : List Token) :
    parseLine (.word m :: ts) = none := by
  simp only [listedMnemonics, List.mem_cons, List.not_mem_nil, or_false, not_or] at hm
  obtain ⟨h1, h2, h3, h4, h5, h6, h7, h8, h9, h10, h11⟩ := hm
  match ts with
  | [] => simp only [parseLine, h1, h2, h4, h7, h10, if_false]
  | [.text t] => simp only [parseLine, h8, h11, if_false]
  | [.word n] => simp only [parseLine, h3, h5, h6, h9, if_false]
  | [.comma] => simp only [parseLine, h9, if_false]
  | _ :: _ :: _ => simp only [parseLine, h9, if_false]

/-- A line of a mnemonic and one word is the mnemonic's token and the word's. -/
theorem lexLine_form {m ds : List Char} (hm : isWord m) (hds : isWord ds) :
    lexLine .gap (m ++ ' ' :: ds) = some [.word m, .word ds] := by
  rw [lexLine_gap_word_space hm, lexLine_gap_word hds, Option.map_some]

/-- A form with a number in range is its command's word, and one out of range is refused. -/
theorem assembleLine_number {m ds : List Char} {n w : Nat} {command : BitVec w → Instr} (base : Nat) (hm : isWord m)
    (hds : writesNumber ds n)
    (hparse : parseLine [.word m, .word ds] = (parseOperand w ds).map fun x => [command x])
    (hencode : ∀ x, encode (command x) = BitVec.ofNat 32 (base + x.toNat)) :
    assembleLine (m ++ ' ' :: ds) = if n < 2 ^ w then some [BitVec.ofNat 32 (base + n)] else none := by
  rw [assembleLine_of_lex (lexLine_form hm (isWord_of_writesNumber hds)), hparse, parseOperand_of_writesNumber hds]
  by_cases hn : n < 2 ^ w
  · simp only [if_pos hn, Option.map_some, List.map_cons, List.map_nil, hencode, BitVec.toNat_ofNat, Nat.mod_eq_of_lt hn]
  · simp only [if_neg hn, Option.map_none]

/-- Settles O50: the plain lines by evaluation; a number reads back and is checked against its field; an unlisted word stands for
nothing; and the lexer stops at a comment outside quotes. -/
theorem assemblerEncodesItsForms : Obligations.AssemblerEncodesItsForms := by
  refine ⟨by decide +kernel, fun ds n hds => ⟨?absorb, ?rdbyte, ?rdword⟩, fun m rest hm hrest hlisted => ?unlisted,
    fun line comment hquotes => ?comment⟩
  case absorb =>
    exact assembleLine_number (m := "absorb".toList) (w := 8) (command := .absorbByte) _ (isWord_of_listed (by decide)) hds
      rfl encode_absorbByte
  case rdbyte =>
    exact assembleLine_number (m := "rdbyte".toList) (w := 5) (command := .readDigestByte) _ (isWord_of_listed (by decide))
      hds rfl encode_readDigestByte
  case rdword =>
    exact assembleLine_number (m := "rdword".toList) (w := 3) (command := .readDigestWord) _ (isWord_of_listed (by decide))
      hds rfl encode_readDigestWord
  case unlisted =>
    obtain ⟨o, ho⟩ := lexLine_gap_word_first hm hrest
    exact assembleLine_of_refused ho (parseLine_of_unlisted hlisted)
  case comment =>
    rw [assembleLine, assembleLine, lexLine_comment]
    simp [hquotes]

/-! ## The refusals of R98 -/

/-- Whatever follows two words on their line, they are the first two tokens. -/
theorem lexLine_two_words {m ds rest : List Char} (hm : isWord m) (hds : isWord ds) (hrest : startsOutside rest) :
    ∃ o : Option (List Token), lexLine .gap (m ++ ' ' :: ds ++ rest) = o.map fun ts => .word m :: .word ds :: ts := by
  obtain ⟨o, ho⟩ := lexLine_gap_word_first hds hrest
  refine ⟨o, ?_⟩
  rw [List.append_assoc, List.cons_append, lexLine_gap_word_space hm, ho, Option.map_map]
  rfl

theorem lexLine_three_words {m ds es rest : List Char} (hm : isWord m) (hds : isWord ds) (hes : isWord es)
    (hrest : startsOutside rest) :
    ∃ o : Option (List Token),
      lexLine .gap (m ++ ' ' :: ds ++ ' ' :: es ++ rest) = o.map fun ts => .word m :: .word ds :: .word es :: ts := by
  obtain ⟨o, ho⟩ := lexLine_two_words hds hes hrest
  refine ⟨o, ?_⟩
  have hline : m ++ ' ' :: ds ++ ' ' :: es ++ rest = m ++ ' ' :: (ds ++ ' ' :: es ++ rest) := by
    simp only [List.append_assoc, List.cons_append]
  rw [hline, lexLine_gap_word_space hm, ho, Option.map_map]
  rfl

/-- Settles O52: the lines of one word by evaluation; two words stand for one of the three forms with a number only, and only where
the second is a number and no third follows. -/
theorem assemblerRefusesWrongOperands : Obligations.AssemblerRefusesWrongOperands := by
  have hnumeric : ∀ m ∈ ["absorb".toList, "rdbyte".toList, "rdword".toList],
      m ∈ listedMnemonics ∧ m ≠ "absorb.bytes".toList := by decide
  have hplain : ∀ m ∈ ["nop".toList, "init".toList, "finalize".toList, "rdstatus".toList],
      m ∈ listedMnemonics ∧ m ≠ "absorb.bytes".toList ∧ m ≠ "absorb".toList ∧ m ≠ "rdbyte".toList ∧
        m ≠ "rdword".toList := by decide
  refine ⟨by decide +kernel, fun m hm ds rest hds hrest => ⟨fun hbad => ?malformed, fun es hes => ?further⟩,
    fun m hm ds rest hds hrest => ?plain⟩
  case malformed =>
    obtain ⟨hlisted, hne⟩ := hnumeric m hm
    obtain ⟨o, ho⟩ := lexLine_two_words (isWord_of_listed hlisted) hds hrest
    refine assembleLine_of_refused ho fun ts => ?_
    simp only [parseLine_two_words hne, parseOperand_of_malformed hds.1 hbad, Option.map_none, ite_self]
  case further =>
    obtain ⟨hlisted, hne⟩ := hnumeric m hm
    obtain ⟨o, ho⟩ := lexLine_three_words (isWord_of_listed hlisted) hds hes hrest
    refine assembleLine_of_refused ho fun ts => ?_
    rw [parseLine_two_words hne, if_neg (List.cons_ne_nil _ _)]
  case plain =>
    obtain ⟨hlisted, hne, habsorb, hrdbyte, hrdword⟩ := hplain m hm
    obtain ⟨o, ho⟩ := lexLine_two_words (isWord_of_listed hlisted) hds hrest
    refine assembleLine_of_refused ho fun ts => ?_
    rw [parseLine_two_words hne, if_neg habsorb, if_neg hrdbyte, if_neg hrdword, ite_self]

/-! ## The pseudo-commands of R99 -/

/-- A line of a mnemonic and a quoted text without a double quote inside. -/
theorem lexLine_quoted {m text : List Char} (hm : isWord m) (htext : '"' ∉ text) :
    lexLine .gap (m ++ ' ' :: '"' :: (text ++ ['"'])) = some [.word m, .text text] := by
  rw [lexLine_gap_word_space hm, lexLine_gap_quote, lexLine_text_run htext]
  rfl

/-- The words of a text's bytes, where the text is ASCII. -/
theorem encode_absorbAll_ascii {text : List Char} (h : ∀ c ∈ text, c.toNat < 128) :
    (absorbAll (text.map fun c => BitVec.ofNat 8 c.toNat)).map encode =
      text.map fun c => BitVec.ofNat 32 (0x20000000 + c.toNat) := by
  simp only [absorbAll, List.map_map]
  refine List.map_congr_left fun c hc => ?_
  have hlt : c.toNat < 2 ^ 8 := (h c hc).trans (by decide)
  simp only [Function.comp_apply, encode_absorbByte, BitVec.toNat_ofNat, Nat.mod_eq_of_lt hlt]

/-- A pseudo-command on a text: what it makes of the text's bytes, or a refusal. -/
theorem assembleLine_text {m text : List Char} {commands : List Byte → List Instr} (hm : isWord m) (htext : '"' ∉ text)
    (hparse : parseLine [.word m, .text text] = (asciiBytes text).map commands) :
    assembleLine (m ++ ' ' :: '"' :: (text ++ ['"'])) =
      if ∀ c ∈ text, c.toNat < 128 then some ((commands (text.map fun c => BitVec.ofNat 8 c.toNat)).map encode)
      else none := by
  rw [assembleLine_of_lex (lexLine_quoted hm htext), hparse, asciiBytes_eq]
  by_cases h : ∀ c ∈ text, c.toNat < 128
  · rw [if_pos h, if_pos h]
    rfl
  · rw [if_neg h, if_neg h]
    rfl

theorem assembleLine_absorbStr {text : List Char} (htext : '"' ∉ text) :
    assembleLine ("absorb.str \"".toList ++ text ++ ['"']) =
      if ∀ c ∈ text, c.toNat < 128 then some (text.map fun c => BitVec.ofNat 32 (0x20000000 + c.toNat)) else none := by
  rw [List.append_assoc]
  refine (assembleLine_text (m := "absorb.str".toList) (isWord_of_listed (by decide)) htext rfl).trans ?_
  refine ite_congr rfl (fun h => ?_) fun _ => rfl
  rw [encode_absorbAll_ascii h]

theorem encode_readDigestCommands : readDigestCommands.map encode = [0x50000000#32, 0x50000001#32, 0x50000002#32,
    0x50000003#32, 0x50000004#32, 0x50000005#32, 0x50000006#32, 0x50000007#32] := by
  decide

theorem assembleLine_hashStr {text : List Char} (htext : '"' ∉ text) :
    assembleLine ("hash.str \"".toList ++ text ++ ['"']) =
      if ∀ c ∈ text, c.toNat < 128 then
        some ([0x10000000#32] ++ (text.map fun c => BitVec.ofNat 32 (0x20000000 + c.toNat)) ++ [0x30000000#32, 0x50000000#32,
          0x50000001#32, 0x50000002#32, 0x50000003#32, 0x50000004#32, 0x50000005#32, 0x50000006#32, 0x50000007#32])
      else none := by
  rw [List.append_assoc]
  refine (assembleLine_text (m := "hash.str".toList) (isWord_of_listed (by decide)) htext rfl).trans ?_
  refine ite_congr rfl (fun h => ?_) fun _ => rfl
  simp only [hashCommands, List.map_append, encode_absorbAll_ascii h, encode_readDigestCommands]
  rw [List.append_assoc _ (List.map encode [.finalize])]
  rfl

/-- The tokens of a list of words with commas between them. -/
def commaTokens : List (List Char) → List Token
  | [] => []
  | [w] => [.word w]
  | w :: ws => .word w :: .comma :: commaTokens ws

theorem lexLine_commas {ws : List (List Char)} (hne : ws ≠ []) (hws : ∀ w ∈ ws, isWord w) :
    lexLine .gap ([',', ' '].intercalate ws) = some (commaTokens ws) := by
  induction ws with
  | nil => exact absurd rfl hne
  | cons w ws ih =>
    obtain ⟨hw, hws⟩ := List.forall_mem_cons.1 hws
    cases ws with
    | nil => rw [List.intercalate_singleton]; exact lexLine_gap_word hw
    | cons v vs =>
      have hcons : [',', ' '].intercalate (w :: v :: vs) = w ++ ',' :: ' ' :: [',', ' '].intercalate (v :: vs) := by
        rw [List.intercalate_cons_cons, List.append_assoc]
        rfl
      rw [hcons, lexLine_gap_word_comma hw, lexLine_gap_space, ih nofun hws]
      rfl

/-- The operands of `absorb.bytes` are its numbers in order, each checked against a byte. -/
theorem parseByteList_commas {numbers : List (List Char × Nat)} (hne : numbers ≠ [])
    (h : ∀ p ∈ numbers, writesNumber p.1 p.2) :
    parseByteList (commaTokens (numbers.map Prod.fst)) =
      if ∀ p ∈ numbers, p.2 < 256 then some (numbers.map fun p => BitVec.ofNat 8 p.2) else none := by
  induction numbers with
  | nil => exact absurd rfl hne
  | cons p ps ih =>
    obtain ⟨hp, hps⟩ := List.forall_mem_cons.1 h
    have hoperand : parseOperand 8 p.1 = if p.2 < 256 then some (BitVec.ofNat 8 p.2) else none :=
      parseOperand_of_writesNumber hp 8
    simp only [List.forall_mem_cons]
    cases ps with
    | nil =>
      simp only [List.map_cons, List.map_nil, commaTokens, parseByteList, hoperand]
      by_cases hlt : p.2 < 256 <;> simp [hlt]
    | cons q qs =>
      have hrest := ih nofun hps
      have hcons : parseByteList (commaTokens ((p :: q :: qs).map Prod.fst)) =
          (parseOperand 8 p.1).bind fun b => (parseByteList (commaTokens ((q :: qs).map Prod.fst))).map (b :: ·) := rfl
      rw [hcons, hoperand, hrest]
      by_cases hlt : p.2 < 256
      · rw [if_pos hlt, Option.bind_some, apply_ite (Option.map _)]
        simp only [eq_true hlt, true_and]
        rfl
      · rw [if_neg hlt, Option.bind_none, if_neg fun hall => hlt hall.1]

/-- The tokens of a list of words start with a word. -/
theorem commaTokens_head {ws : List (List Char)} (hne : ws ≠ []) : ∃ w ts, commaTokens ws = .word w :: ts := by
  match ws with
  | [w] => exact ⟨w, [], rfl⟩
  | w :: v :: vs => exact ⟨w, _, rfl⟩

theorem parseLine_absorbBytes (w : List Char) (ts : List Token) :
    parseLine (.word "absorb.bytes".toList :: .word w :: ts) = (parseByteList (.word w :: ts)).map absorbAll := by
  simp only [parseLine, if_true]

theorem assembleLine_absorbBytes {numbers : List (List Char × Nat)} (hne : numbers ≠ [])
    (h : ∀ p ∈ numbers, writesNumber p.1 p.2) :
    assembleLine ("absorb.bytes ".toList ++ [',', ' '].intercalate (numbers.map Prod.fst)) =
      if ∀ p ∈ numbers, p.2 < 256 then some (numbers.map fun p => BitVec.ofNat 32 (0x20000000 + p.2)) else none := by
  have hne' : numbers.map Prod.fst ≠ [] := by simpa using hne
  have hwords : ∀ w ∈ numbers.map Prod.fst, isWord w := by
    simp only [List.forall_mem_map]
    exact fun p hp => isWord_of_writesNumber (h p hp)
  have hlex : lexLine .gap ("absorb.bytes ".toList ++ [',', ' '].intercalate (numbers.map Prod.fst)) =
      some (.word "absorb.bytes".toList :: commaTokens (numbers.map Prod.fst)) := by
    have hspace := lexLine_gap_word_space (m := "absorb.bytes".toList) (isWord_of_listed (by decide))
      ([',', ' '].intercalate (numbers.map Prod.fst))
    rw [lexLine_commas hne' hwords] at hspace
    exact hspace
  have hparse : parseLine (.word "absorb.bytes".toList :: commaTokens (numbers.map Prod.fst)) =
      (parseByteList (commaTokens (numbers.map Prod.fst))).map absorbAll := by
    obtain ⟨w, ts, hts⟩ := commaTokens_head hne'
    rw [hts]
    exact parseLine_absorbBytes w ts
  rw [assembleLine_of_lex hlex, hparse, parseByteList_commas hne h]
  by_cases hall : ∀ p ∈ numbers, p.2 < 256
  · rw [if_pos hall, if_pos hall, Option.map_some, Option.map_some]
    simp only [absorbAll, List.map_map]
    refine congrArg some (List.map_congr_left fun p hp => ?_)
    simp only [Function.comp_apply, encode_absorbByte, BitVec.toNat_ofNat, Nat.mod_eq_of_lt (hall p hp : p.2 < 2 ^ 8)]
  · rw [if_neg hall, if_neg hall]
    rfl

/-- Settles O51: a text is one token, whose bytes are its characters where they are ASCII; a list of numbers is words with commas
between them. -/
theorem assemblerExpandsThePseudoCommands : Obligations.AssemblerExpandsThePseudoCommands :=
  ⟨fun _ htext => ⟨assembleLine_absorbStr htext, assembleLine_hashStr htext⟩,
    fun _ hne h => assembleLine_absorbBytes hne h, by decide +kernel⟩

end Sys2Proof.Machine
end
